-- ==== Sys2Proof/Word.lean ====
section
/-!
DEFINITION. The words of OSPF-CKSUM: bytes, 16-bit packet fields, 32-bit registers and bus data, 17-bit bus offsets
(spec/00_scope.md R5, R6; spec/20_memory.md R30).
-/

namespace Sys2Proof

/-- One byte of the packet buffer (spec/10_state.md R25). -/
abbrev Byte := BitVec 8

/-- A 16-bit packet field, a byte count, or a checksum (spec/00_scope.md R5). -/
abbrev Half := BitVec 16

/-- A register's value, a command word, or the data of a bus access (spec/10_state.md R12, spec/20_memory.md R30). -/
abbrev Word := BitVec 32

/-- A byte offset of the bus port, 0x00000 to 0x1FFFF (spec/20_memory.md R30). -/
abbrev Offset := BitVec 17

end Sys2Proof
end

