-- ==== Sys2Proof/Syntax.lean ====
section
/-!
DEFINITION. The commands of OSPF-CKSUM, one constructor for each row of spec/opcode_table.json
(spec/30_encoding.md R51). Every operand is implicit, so no constructor has a field (R55).
-/

namespace Sys2Proof

/-- The four commands a legal command word selects (spec/30_encoding.md R51). -/
inductive Instr where
  /-- CSUM: compute the checksum into RESULT (spec/40_checksum.md R76). -/
  | csum
  /-- GEN: patch the length field, then compute and patch the checksum (spec/41_length_generate.md R91). -/
  | gen
  /-- VAL: validate checksum, length field and authentication type (spec/40_checksum.md R77). -/
  | val
  /-- PLEN: patch the length field only (spec/41_length_generate.md R90). -/
  | plen
  deriving DecidableEq, Repr

end Sys2Proof
end

