-- ==== Sys2Proof/WellFormed.lean ====
section
/-!
DEFINITION. What is well formed before the machine looks at it. A command has no operand field (spec/30_encoding.md R55), so
every `Instr` is well formed; the checks are on the command WORD and on the capacity parameter.
-/

namespace Sys2Proof

/-- "So the legal command words are exactly 0x00000001, 0x00000002, 0x00000003 and 0x00000004"
(spec/30_encoding.md R51). -/
def commandWordLegal (d : Word) : Bool :=
  d == 1#32 || d == 2#32 || d == 3#32 || d == 4#32

/-- "24 ≤ BUF_BYTES ≤ 65535" (spec/00_scope.md R5). -/
def capacityLegal (bufBytes : Nat) : Bool :=
  decide (24 ≤ bufBytes) && decide (bufBytes ≤ 65535)

end Sys2Proof
end

