-- ==== Sys2Proof/Decode.lean ====
section
/-!
DEFINITION. Decoding of a command word (spec/30_encoding.md R50, R51) and the encoder beside it.
-/

namespace Sys2Proof

/-- Why a command word is illegal (spec/30_encoding.md R54, R57). -/
inductive DecodeError where
  /-- RSVD, bits 31:4, is not zero. -/
  | reservedBits (rsvd : BitVec 28)
  /-- RSVD is zero and OPCODE is 0x0 or 0x5 to 0xF. -/
  | reservedOpcode (opcode : BitVec 4)
  deriving DecidableEq, Repr

/-- The field OPCODE, bits 3:0 (spec/30_encoding.md R50). -/
def opcodeField (d : Word) : BitVec 4 := d.extractLsb' 0 4

/-- The field RSVD, bits 31:4 (spec/30_encoding.md R50). -/
def rsvdField (d : Word) : BitVec 28 := d.extractLsb' 4 28

/-- The command an OPCODE selects when RSVD is zero (the table of spec/30_encoding.md R51). -/
def decodeOpcode (opcode : BitVec 4) : Except DecodeError Instr :=
  match opcode.toNat with
  | 1 => .ok .csum
  | 2 => .ok .gen
  | 3 => .ok .val
  | 4 => .ok .plen
  | _ => .error (.reservedOpcode opcode)

/-- Decoding of the 32-bit command word (spec/30_encoding.md R51): "≠ 0, any: illegal", else by OPCODE. -/
def decode (d : Word) : Except DecodeError Instr :=
  if rsvdField d = 0#28 then decodeOpcode (opcodeField d) else .error (.reservedBits (rsvdField d))

/-- The OPCODE of a command (spec/30_encoding.md R51). -/
def opcodeOf : Instr → BitVec 4
  | .csum => 0x1#4
  | .gen => 0x2#4
  | .val => 0x3#4
  | .plen => 0x4#4

/-- The command word of a command: RSVD zero above the OPCODE (spec/30_encoding.md R50, R51). -/
def encode (i : Instr) : Word := 0#28 ++ opcodeOf i

/-- The instruction's table word: the low `nbits` bits of `w`, the bits above them zero. -/
def tableBits (nbits w : Nat) : Nat := w % 2 ^ nbits

/-- What the decoder reads from the instruction whose bits are `w`, numbered as spec/opcode_table.json numbers them. A command
is exactly one 32-bit word ("there is no other length", spec/30_encoding.md R50), written whole to CMD, so bit k of the
table is bit k of the word; bits beyond 32 make no command word. -/
def decodeTableWord (nbits w : Nat) : Option Instr :=
  if tableBits nbits w < 2 ^ 32 then (decode (BitVec.ofNat 32 (tableBits nbits w))).toOption else none

end Sys2Proof
end

