-- ==== Sys2Proof/Config.lean ====
section
/-!
DEFINITION. What one implementation fixes and what the spec leaves without a value. Every constant here is opaque and has
no body, so nothing can be proved about its value but what its type says.
-/

namespace Sys2Proof.Config

/-- How far BUF_BYTES lies above its least legal value 24. The type says what spec/00_scope.md R5 says:
24 ≤ BUF_BYTES ≤ 65535. -/
opaque bufExtra : Fin 65512

/-- BUF_BYTES, the capacity of the packet buffer (spec/00_scope.md R5; OPEN). `State.reset` starts with it; the machine
itself carries the parameter in its state, so a statement about every state speaks of every capacity (log 3). -/
def bufBytes : Nat := bufExtra.val + 24

/-- The free values of Host reads that return "any value (a draw)": spec/20_memory.md R37, R38, R41 and
spec/70_reset_and_hazards.md R120. Applied to a counter that every Host read advances (log 4). -/
opaque freeWord : Nat → Word

/-- The undefined value of the unwritten buffer byte at an offset (spec/20_memory.md R41). No command that completes has
read one: a command whose range covers an unwritten byte stops first (log 2). -/
opaque undefinedByte : Nat → Byte

end Sys2Proof.Config
end

