-- ==== Sys2Proof/Machine/State.lean ====
section
/-!
DEFINITION. The state of OSPF-CKSUM as plain data: the block's registers, latch and buffer (spec/10_state.md), the input
`rst`, and what the outside world still has to do (the Host's program, the schedule).
-/

namespace Sys2Proof.Machine

/-- Sparse data by key: a list of pairs with strictly rising keys (`Sparse.wf` in Machine/Ops.lean). -/
abbrev Sparse (α : Type) := List (Nat × α)

/-- The packet buffer's written bytes (spec/10_state.md R25): a list of `Host.Cell`. An offset that is not listed is
unwritten and has no value (spec/20_memory.md R41, spec/70_reset_and_hazards.md R121). -/
abbrev Memory := Sparse Byte

/-- The outcomes STATUS.ERRCODE reports (spec/60_exceptions.md R101); codes 7 to 15 are never produced. -/
inductive ErrCode where
  /-- 0 NONE. -/
  | none
  /-- 1 ILLEGAL_CMD. -/
  | illegalCmd
  /-- 2 LEN_RANGE. -/
  | lenRange
  /-- 3 TRUNCATED. -/
  | truncated
  /-- 4 CHECKSUM_MISMATCH. -/
  | checksumMismatch
  /-- 5 LENGTH_MISMATCH. -/
  | lengthMismatch
  /-- 6 AUTH_UNSUPPORTED. -/
  | authUnsupported
  deriving DecidableEq, Repr

/-- CTRL (spec/10_state.md R13, R14); bits 31:2 hold nothing (R15). -/
structure Ctrl where
  /-- CTRL.IE, bit 0. -/
  ie : Bool
  /-- CTRL.LEN_CHECK, bit 1. -/
  lenCheck : Bool
  deriving DecidableEq, Repr

/-- STATUS (spec/10_state.md R18 to R20). STATUS.BUSY is stored as the latch's validity (`Block.busy` in Machine/Flags.lean, log 12). -/
structure Status where
  /-- STATUS.DONE, bit 1. -/
  done : Bool
  /-- STATUS.BUSYWR, bit 2. -/
  busyWr : Bool
  /-- STATUS.ERRCODE, bits 7:4. -/
  errCode : ErrCode
  deriving DecidableEq, Repr

/-- HDR (spec/10_state.md R24). -/
structure Hdr where
  /-- HDR.LENF, bits 31:16. -/
  lenf : Half
  /-- HDR.CKF, bits 15:0. -/
  ckf : Half
  deriving DecidableEq, Repr

/-- The pending-command latch P (spec/10_state.md R27). -/
structure Latch where
  /-- The 32-bit CMD write data. -/
  word : Word
  /-- LEN.N at acceptance. -/
  n : Half
  /-- CTRL.LEN_CHECK at acceptance. -/
  lenchk : Bool
  deriving DecidableEq, Repr

/-- The hardware block. -/
structure Block where
  /-- The parameter BUF_BYTES (spec/00_scope.md R5, log 3); no step writes it. -/
  bufBytes : Nat
  /-- CTRL. -/
  ctrl : Ctrl
  /-- STATUS, all but BUSY. -/
  status : Status
  /-- LEN.N. -/
  len : Half
  /-- RESULT.CSUM. -/
  result : Half
  /-- HDR. -/
  hdr : Hdr
  /-- The latch P; `none` is "invalid". -/
  latch : Option Latch
  /-- The packet buffer. -/
  buf : Memory
  deriving DecidableEq, Repr

/-- The width of a Host access, 1, 2 or 4 bytes (spec/20_memory.md R30). -/
inductive Width where
  | w1
  | w2
  | w4
  deriving DecidableEq, Repr

/-- One line of a Host program (spec/30_encoding.md R59, spec/20_memory.md R43). -/
inductive HostOp where
  /-- `sw`, `sh`, `sb`: BusWrite(off, w, d). -/
  | store (w : Width) (off : Offset) (d : Word)
  /-- `lw`, `lh`, `lb`: host-side variable r ← BusRead(off, w). -/
  | load (r : Nat) (w : Width) (off : Offset)
  /-- `wait`: `L: lw t, STATUS`; `if t[0] = 1 goto L`. -/
  | wait (t : Nat)
  /-- The other half of the completion handshake: the Host waits for `irq`, which comes where CTRL.IE = 1 (spec/20_memory.md R43;
  R59 has no notation for it, log 21). -/
  | waitIrq
  deriving DecidableEq, Repr

/-- The Host agent (spec/10_state.md R10). -/
structure HostAgent where
  /-- What it still has to do, in issue order. -/
  program : List HostOp
  /-- The host-side variables of spec/30_encoding.md R59. -/
  vars : Sparse Word
  /-- The model's counter for draws (log 4). -/
  draws : Nat
  deriving DecidableEq, Repr

/-- What the scheduler, or the input `rst`, does next (spec/10_state.md R10, spec/70_reset_and_hazards.md R120). -/
inductive Turn where
  /-- The Host performs its next operation. -/
  | host
  /-- The Engine performs its complete step, if that is enabled. -/
  | engine
  /-- The input `rst` takes this level. -/
  | rst (level : Bool)
  deriving DecidableEq, Repr

/-- The whole machine. -/
structure State where
  /-- The hardware. -/
  block : Block
  /-- The level of the input `rst`. -/
  rst : Bool
  /-- The Host. -/
  host : HostAgent
  /-- The turns still scheduled (log 9). -/
  sched : List Turn
  deriving DecidableEq, Repr

/-- The conditions of spec/20_memory.md R33 under which a Host access raises HostFault. -/
inductive HostFaultCause where
  /-- (a) `off mod w ≠ 0`. -/
  | misaligned
  /-- (b) off lies in 0x00018 to 0x0FFFF. -/
  | reservedOffset
  /-- (c) a register access of a width other than 4. -/
  | registerWidth
  /-- (d) a byte of the access lies beyond the buffer. -/
  | beyondBuffer
  deriving DecidableEq, Repr

/-- Why the machine stops. -/
inductive Fault where
  /-- The bus error response to a Host access, "a fault of the Host agent" (spec/60_exceptions.md R110). Raised by a Host turn;
  the block's state is the one before the access. Safe: the model stops where a platform might let its Host go on (log 1). -/
  | hostFault (cause : HostFaultCause)
  /-- The model's own UninitRead (spec/20_memory.md R41): a command's range covers the unwritten byte at this offset, the
  lowest such. Raised by a command. Safe: the hardware raises nothing and computes over undefined data (log 2). -/
  | uninitRead (offset : Nat)
  /-- `exec` was asked for the complete step while no command is pending; spec/10_state.md R10 enables no step there. Never raised
  by `step`. Safe: a stuck state (log 11). -/
  | engineIdle
  deriving DecidableEq, Repr

/-- Why the model gives an instruction no meaning. -/
inductive Refusal where
  /-- The instruction of this mnemonic is not modelled yet. Raised by `exec`'s arm for it; no arm does. Safe. -/
  | notModelled (mnemonic : String)
  deriving DecidableEq, Repr

/-- The block right after reset with the capacity `n` (spec/10_state.md R29): CTRL = 0x2, everything else 0, the latch invalid,
every buffer byte unwritten. -/
def Block.reset (n : Nat) : Block :=
  { bufBytes := n
    ctrl := { ie := false, lenCheck := true }
    status := { done := false, busyWr := false, errCode := .none }
    len := 0#16
    result := 0#16
    hdr := { lenf := 0#16, ckf := 0#16 }
    latch := none
    buf := [] }

/-- The machine right after reset with the capacity `n`: `rst` released, no Host operation and no turn pending
(logs 4, 9, 10, 13, 16). -/
def State.resetWith (n : Nat) : State :=
  { block := Block.reset n
    rst := false
    host := { program := [], vars := [], draws := 0 }
    sched := [] }

/-- The machine right after reset, with this implementation's BUF_BYTES. -/
def State.reset : State := State.resetWith Config.bufBytes

end Sys2Proof.Machine
end

