-- ==== Sys2Proof/Machine/Flags.lean ====
section
/-!
DEFINITION. The status flags, the error codes, the interrupt output and the words that CTRL, STATUS, LEN, RESULT and HDR
read as (spec/10_state.md R13 to R26, spec/60_exceptions.md R101, R104).
-/

namespace Sys2Proof.Machine

/-- STATUS.BUSY: "P is valid exactly while STATUS.BUSY = 1" (spec/10_state.md R17, R27; log 12). -/
def Block.busy (b : Block) : Bool := b.latch.isSome

/-- The 4-bit code of an outcome (spec/60_exceptions.md R101). -/
def ErrCode.code : ErrCode → BitVec 4
  | .none => 0
  | .illegalCmd => 1
  | .lenRange => 2
  | .truncated => 3
  | .checksumMismatch => 4
  | .lengthMismatch => 5
  | .authUnsupported => 6

/-- `irq = CTRL.IE & STATUS.DONE` (spec/10_state.md R26, spec/60_exceptions.md R104). -/
def Block.irq (b : Block) : Bool := b.ctrl.ie && b.status.done

/-- A flag as one bit. -/
def bit (f : Bool) : BitVec 1 := BitVec.ofBool f

/-- CTRL as a Host reads it: LEN_CHECK in bit 1, IE in bit 0, the reserved bits 0 (spec/10_state.md R13 to R15). -/
def Block.ctrlWord (b : Block) : Word := 0#30 ++ (bit b.ctrl.lenCheck ++ bit b.ctrl.ie)

/-- What a Host write of `d` makes of CTRL: bits 31:2 are ignored (spec/10_state.md R13 to R15). -/
def ctrlOfWord (d : Word) : Ctrl := { ie := d.getLsbD 0, lenCheck := d.getLsbD 1 }

/-- STATUS as a Host reads it: ERRCODE in bits 7:4, BUSYWR, DONE, BUSY in bits 2, 1, 0, the reserved bits 0
(spec/10_state.md R17 to R21). -/
def Block.statusWord (b : Block) : Word :=
  0#24 ++ (b.status.errCode.code ++ (0#1 ++ (bit b.status.busyWr ++ (bit b.status.done ++ bit b.busy))))

/-- What a Host write of `d` makes of STATUS: write-1-to-clear of DONE (bit 1) and BUSYWR (bit 2), nothing else
(spec/10_state.md R18, R19, R21). -/
def Status.clearedBy (st : Status) (d : Word) : Status :=
  { st with
    done := st.done && !d.getLsbD 1
    busyWr := st.busyWr && !d.getLsbD 2 }

/-- LEN as a Host reads it (spec/10_state.md R22). -/
def Block.lenWord (b : Block) : Word := b.len.setWidth 32

/-- What a Host write of `d` makes of LEN.N: bits 31:16 are ignored (spec/10_state.md R22). -/
def lenOfWord (d : Word) : Half := d.setWidth 16

/-- RESULT as a Host reads it while no command is pending (spec/10_state.md R23). -/
def Block.resultWord (b : Block) : Word := b.result.setWidth 32

/-- HDR as a Host reads it while no command is pending (spec/10_state.md R24). -/
def Block.hdrWord (b : Block) : Word := b.hdr.lenf ++ b.hdr.ckf

/-- The sticky record of a Host write dropped because a command was in flight (spec/10_state.md R19, spec/60_exceptions.md R108). -/
def Block.dropWrite (b : Block) : Block := { b with status := { b.status with busyWr := true } }

end Sys2Proof.Machine
end

