-- ==== Sys2Proof/Machine/Ops.lean ====
section
/-!
DEFINITION. The named operations: sparse data, the buffer's bytes in both byte orders, accepting a command, completing
one (the block's counterpart of taking an exception) and reset.
-/

namespace Sys2Proof.Machine

/-! ### Sparse data -/

/-- The value listed under a key. -/
def Sparse.read {α : Type} (m : Sparse α) (k : Nat) : Option α :=
  match m with
  | [] => none
  | (key, v) :: rest => if key = k then some v else Sparse.read rest k

/-- Lists `v` under `k`, in the place that keeps the keys rising, and replaces what stood there. -/
def Sparse.write {α : Type} (m : Sparse α) (k : Nat) (v : α) : Sparse α :=
  match m with
  | [] => [(k, v)]
  | (key, old) :: rest =>
    if k < key then (k, v) :: (key, old) :: rest
    else if key = k then (k, v) :: rest
    else (key, old) :: Sparse.write rest k v

/-- The one canonical form: keys strictly rising. -/
abbrev Sparse.wf {α : Type} (m : Sparse α) : Prop := (m.map Prod.fst).Pairwise (· < ·)

/-! ### The packet buffer -/

/-- The byte at buffer offset `k`; `none` where it is unwritten (spec/10_state.md R25, spec/20_memory.md R41). -/
def Memory.read (m : Memory) (k : Nat) : Option Byte := Sparse.read m k

/-- Writes one byte of the buffer. -/
def Memory.write (m : Memory) (k : Nat) (v : Byte) : Memory := Sparse.write m k v

/-- The buffer is in canonical form. An unlisted offset reads as no value, so every listed byte counts. -/
abbrev Memory.wf (m : Memory) : Prop := Sparse.wf m

/-- `buf[k]` of spec/00_scope.md R8 as a value: the byte written there, and an undefined one (a constant without a body) where
none was. -/
def Memory.byte (m : Memory) (k : Nat) : Byte := (m.read k).getD (Config.undefinedByte k)

/-- Writes the bytes `f 0, …, f (count − 1)` at `k`, `k + 1`, …. -/
def Memory.writeBytes (m : Memory) (k : Nat) (f : Nat → Byte) : Nat → Memory
  | 0 => m
  | count + 1 => (Memory.writeBytes m k f count).write (k + count) (f count)

/-- `MemRead(k, n)`: n bytes in packet byte order, the byte at the lower offset more significant (spec/00_scope.md R7, R8). -/
def Memory.memRead (m : Memory) (k : Nat) : (n : Nat) → BitVec (8 * n)
  | 0 => 0#0
  | n + 1 => Memory.memRead m k n ++ m.byte (k + n)

/-- Byte i of the 8n-bit value v in packet byte order, `v[8(n−i)−1 : 8(n−i)−8]` (spec/00_scope.md R8). -/
def packetByte (n : Nat) (v : BitVec (8 * n)) (i : Nat) : Byte := v.extractLsb' (8 * (n - 1 - i)) 8

/-- `MemWrite(k, n, v)`: buf[k+i] ← `packetByte n v i` for i = 0 … n−1 (spec/00_scope.md R8). -/
def Memory.memWrite (m : Memory) (k n : Nat) (v : BitVec (8 * n)) : Memory :=
  m.writeBytes k (packetByte n v) n

/-- Data lane i of a bus access, bits 8i+7:8i (spec/20_memory.md R30). -/
def lane (d : Word) (i : Nat) : Byte := d.extractLsb' (8 * i) 8

/-- The bytes of a width (spec/20_memory.md R30). -/
def Width.bytes : Width → Nat
  | .w1 => 1
  | .w2 => 2
  | .w4 => 4

/-- Lane i of a w-byte read made of `f`: `f i` inside the width, 0 beyond it. -/
def laneOf (w : Width) (f : Nat → Byte) (i : Nat) : Byte := if i < w.bytes then f i else 0#8

/-- The value of a w-byte read whose lane i is `f i` (spec/20_memory.md R35), widened with zeros (log 13). -/
def ofLanes (w : Width) (f : Nat → Byte) : Word :=
  laneOf w f 3 ++ (laneOf w f 2 ++ (laneOf w f 1 ++ laneOf w f 0))

/-- `BusWrite` on the buffer window: buf[k+i] ← d[8i+7:8i] for i < w (spec/20_memory.md R35). -/
def Memory.busWrite (m : Memory) (k : Nat) (w : Width) (d : Word) : Memory :=
  m.writeBytes k (lane d) w.bytes

/-! ### Acceptance, completion, reset -/

/-- Acceptance of the command word `d` (spec/30_encoding.md R52): the latch takes the word, LEN.N and CTRL.LEN_CHECK; DONE and
ERRCODE are cleared; BUSY becomes 1 with the latch. Nothing else changes. -/
def Block.accept (b : Block) (d : Word) : Block :=
  { b with
    latch := some { word := d, n := b.len, lenchk := b.ctrl.lenCheck }
    status := { b.status with done := false, errCode := .none } }

/-- Completion with an outcome (spec/60_exceptions.md R100): ERRCODE ← code, BUSY ← 0 with P ← invalid, DONE ← 1. -/
def Block.complete (b : Block) (code : ErrCode) : Block :=
  { b with
    latch := none
    status := { b.status with done := true, errCode := code } }

/-- How the rule of a command ends: with an outcome and the block as the rule left it, or at an unwritten byte. -/
inductive CmdResult where
  /-- The rule's end (`.none`) or its first `raise Error(code)`. -/
  | ends (code : ErrCode) (b : Block)
  /-- `UninitRead` at this offset (spec/20_memory.md R41). -/
  | uninit (offset : Nat)
  deriving DecidableEq, Repr

/-- The Engine's complete step for a command whose rule is `rule` (spec/10_state.md R10, spec/60_exceptions.md R100): runs the
rule on the latch and the block, then completes. This is the one place where an outcome is recorded. -/
def State.runCommand (s : State) (rule : Latch → Block → CmdResult) : Host.Outcome State Fault Refusal :=
  match s.block.latch with
  | none => .fault .engineIdle
  | some p =>
    match rule p s.block with
    | .ends code b => .next { s with block := b.complete code }
    | .uninit offset => .fault (.uninitRead offset)

/-- The input `rst` takes a level: while it is asserted, and at the moment it is released, every register, STATUS bit and the
latch take their reset values and every buffer byte is unwritten (spec/70_reset_and_hazards.md R120, R121). The Host is
outside the block and keeps its program (log 16). -/
def State.driveRst (s : State) (level : Bool) : State :=
  if level || s.rst then { s with rst := level, block := Block.reset s.block.bufBytes } else { s with rst := level }

end Sys2Proof.Machine
end

