-- ==== Sys2Proof/Machine/Operands.lean ====
section
/-!
DEFINITION. The implicit operands of a command (spec/30_encoding.md R55, R56): the byte count N, the header's fields, and
the range checks and header capture every command begins with (spec/40_checksum.md R75).
-/

namespace Sys2Proof.Machine

/-- "In the command rules, `N` means `P.n`" (spec/30_encoding.md R55), an unsigned count. -/
def Latch.count (p : Latch) : Nat := p.n.toNat

/-- The header's length field, bytes 2 and 3 (spec/30_encoding.md R56). -/
def Memory.lengthField (m : Memory) : Half := m.memRead 2 2

/-- The header's checksum field, bytes 12 and 13 (spec/30_encoding.md R56). -/
def Memory.checksumField (m : Memory) : Half := m.memRead 12 2

/-- The header's authentication type, bytes 14 and 15 (spec/30_encoding.md R56). -/
def Memory.authType (m : Memory) : Half := m.memRead 14 2

/-- `MemWrite(2, 2, N)`: the length patch of spec/41_length_generate.md R90, R91. -/
def Memory.patchLength (m : Memory) (n : Half) : Memory := m.memWrite 2 2 n

/-- `MemWrite(12, 2, c)`: the checksum patch of spec/41_length_generate.md R91. -/
def Memory.patchChecksum (m : Memory) (c : Half) : Memory := m.memWrite 12 2 c

/-- The lowest unwritten offset of `buf[0 … n−1]` (spec/20_memory.md R41). -/
def Memory.firstUnwritten (m : Memory) (n : Nat) : Option Nat :=
  (List.range n).find? fun k => (m.read k).isNone

/-- The header capture of spec/40_checksum.md R75: HDR takes the length and checksum fields as they stand. -/
def Block.captureHeader (b : Block) : Block :=
  { b with hdr := { lenf := b.buf.lengthField, ckf := b.buf.checksumField } }

/-- Range checks and header capture (spec/40_checksum.md R75), then the rest of the command's rule. Between the two the model's
UninitRead: no byte is read before the range checks (spec/95_test_vectors.md C6, P3), every byte of the range counts after
them (spec/20_memory.md R41, log 2). -/
def withHeader (p : Latch) (b : Block) (rest : Block → CmdResult) : CmdResult :=
  if b.bufBytes < p.count then .ends .lenRange b
  else if p.count < 24 then .ends .truncated b
  else
    match b.buf.firstUnwritten p.count with
    | some offset => .uninit offset
    | none => rest b.captureHeader

end Sys2Proof.Machine
end

