-- ==== Sys2Proof/Machine/Checksum.lean ====
section
/-!
DEFINITION. The checksum routine (spec/40_checksum.md R70 to R72) and the commands CSUM (R76) and VAL (R77).
-/

namespace Sys2Proof.Machine

/-- `Excl(k)`: the checksum field and the authentication region count as zero (spec/40_checksum.md R70). -/
def excluded (k : Nat) : Bool := k == 12 || k == 13 || (decide (16 ≤ k) && decide (k ≤ 23))

/-- `B(k)`: 0 beyond the packet (the pad of R71), 0 where excluded, else buf[k] (spec/40_checksum.md R70, R71). -/
def summedByte (m : Memory) (n k : Nat) : Byte :=
  if n ≤ k then 0#8 else if excluded k then 0#8 else m.byte k

/-- `W(i) = B(2i) ‖ B(2i+1)` (spec/40_checksum.md R70). -/
def summedWord (m : Memory) (n i : Nat) : Half := summedByte m n (2 * i) ++ summedByte m n (2 * i + 1)

/-- The exact sum of the first `count` words (spec/40_checksum.md R70). -/
def sumWords (m : Memory) (n : Nat) : Nat → Nat
  | 0 => 0
  | count + 1 => sumWords m n count + (summedWord m n count).toNat

/-- The number of words of an n-byte packet, ceil(n/2) (spec/40_checksum.md R70). -/
def wordCount (n : Nat) : Nat := (n + 1) / 2

/-- `S` of an n-byte packet (spec/40_checksum.md R70). -/
def packetSum (m : Memory) (n : Nat) : Nat := sumWords m n (wordCount n)

/-- One pass of the fold's loop, `s[15:0] + (s >> 16)` (spec/40_checksum.md R70). -/
def foldPass (s : Nat) : Nat := s % 0x10000 + s / 0x10000

/-- The loop `while s > 0xFFFF`, at most `fuel` times round. -/
def foldLoop : Nat → Nat → Nat
  | 0, s => s
  | fuel + 1, s => if s ≤ 0xFFFF then s else foldLoop fuel (foldPass s)

/-- `Fold(s)` (spec/40_checksum.md R70). A pass over a value above 0xFFFF makes it smaller, so s times round is enough for every
s; for a packet's sum the loop goes round at most twice (R72). -/
def fold (s : Nat) : Nat := foldLoop s s

/-- `Checksum(N) = ~Fold(S)` (spec/40_checksum.md R70). -/
def checksum (m : Memory) (n : Nat) : Half := ~~~(BitVec.ofNat 16 (fold (packetSum m n)))

/-- 16-bit end-around-carry addition: the carry out of bit 15 is added back at once (spec/40_checksum.md R72). -/
def endAroundAdd (a w : Nat) : Nat := if a + w ≤ 0xFFFF then a + w else a + w - 0xFFFF

/-- The sum of the first `count` words by an implementation that folds after every addition (spec/40_checksum.md R72). No command
uses it; it is there to be proved equal to the fold of the exact sum. -/
def endAroundSum (m : Memory) (n : Nat) : Nat → Nat
  | 0 => 0
  | count + 1 => endAroundAdd (endAroundSum m n count) (summedWord m n count).toNat

/-- CSUM after its range checks: RESULT.CSUM ← Checksum(N), no error (spec/40_checksum.md R76). -/
def csumRule (p : Latch) (b : Block) : CmdResult :=
  withHeader p b fun b => .ends .none { b with result := checksum b.buf p.count }

/-- VAL's three checks in their order (spec/40_checksum.md R77, spec/60_exceptions.md R102), on the computed checksum. -/
def valOutcome (p : Latch) (b : Block) (c : Half) : ErrCode :=
  if c ≠ b.hdr.ckf then .checksumMismatch
  else if p.lenchk && b.hdr.lenf != p.n then .lengthMismatch
  else if b.buf.authType ≠ 0#16 then .authUnsupported
  else .none

/-- VAL: RESULT.CSUM ← Checksum(N), written whatever the checks say (spec/40_checksum.md R77). -/
def valRule (p : Latch) (b : Block) : CmdResult :=
  withHeader p b fun b =>
    .ends (valOutcome p b (checksum b.buf p.count)) { b with result := checksum b.buf p.count }

/-- CSUM (spec/40_checksum.md R76). -/
def execCsum (s : State) : Host.Outcome State Fault Refusal := s.runCommand csumRule

/-- VAL (spec/40_checksum.md R77). -/
def execVal (s : State) : Host.Outcome State Fault Refusal := s.runCommand valRule

end Sys2Proof.Machine
end

