-- ==== Sys2Proof/Machine/LengthGenerate.lean ====
section
/-!
DEFINITION. The commands PLEN (spec/41_length_generate.md R90) and GEN (R91).
-/

namespace Sys2Proof.Machine

/-- PLEN after its range checks: the length patch, no error (spec/41_length_generate.md R90). -/
def plenRule (p : Latch) (b : Block) : CmdResult :=
  withHeader p b fun b => .ends .none { b with buf := b.buf.patchLength p.n }

/-- GEN's patches: length first, then the checksum over the patched packet, then the checksum patch and RESULT
(spec/41_length_generate.md R91). -/
def Block.generate (b : Block) (n : Half) : Block :=
  { b with
    buf := (b.buf.patchLength n).patchChecksum (checksum (b.buf.patchLength n) n.toNat)
    result := checksum (b.buf.patchLength n) n.toNat }

/-- GEN: a nonzero authentication type fails before the first write (spec/41_length_generate.md R91). -/
def genRule (p : Latch) (b : Block) : CmdResult :=
  withHeader p b fun b =>
    if b.buf.authType ≠ 0#16 then .ends .authUnsupported b else .ends .none (b.generate p.n)

/-- PLEN (spec/41_length_generate.md R90). -/
def execPlen (s : State) : Host.Outcome State Fault Refusal := s.runCommand plenRule

/-- GEN (spec/41_length_generate.md R91). -/
def execGen (s : State) : Host.Outcome State Fault Refusal := s.runCommand genRule

end Sys2Proof.Machine
end

