-- ==== Sys2Proof/Machine/Dispatch.lean ====
section
/-!
DEFINITION. One arm for each command; each is the Engine's complete step for a pending command of that word.
-/

namespace Sys2Proof.Machine

/-- The complete step (spec/10_state.md R10) of the command `i`. -/
def exec (i : Instr) (s : State) : Host.Outcome State Fault Refusal :=
  match i with
  | .csum => Sys2Proof.Machine.execCsum s
  | .gen => Sys2Proof.Machine.execGen s
  | .val => Sys2Proof.Machine.execVal s
  | .plen => Sys2Proof.Machine.execPlen s

end Sys2Proof.Machine
end

