-- ==== Sys2Proof/Machine/Bus.lean ====
section
/-!
DEFINITION. The bus port (spec/20_memory.md R30 to R39): address map, HostFault, reads with their draws, writes.
-/

namespace Sys2Proof.Machine

/-- The six registers (spec/10_state.md R12). -/
inductive Reg where
  | ctrl
  | cmd
  | status
  | len
  | result
  | hdr
  deriving DecidableEq, Repr

/-- The register's byte offset (spec/10_state.md R12). -/
def Reg.offset : Reg → Offset
  | .ctrl => 0x00000#17
  | .cmd => 0x00004#17
  | .status => 0x00008#17
  | .len => 0x0000C#17
  | .result => 0x00010#17
  | .hdr => 0x00014#17

/-- What an access that does not fault reaches. -/
inductive Target where
  /-- A register. -/
  | reg (r : Reg)
  /-- The buffer from offset `k` on. -/
  | buf (k : Nat)
  deriving DecidableEq, Repr

/-- The condition of spec/20_memory.md R33 that an access of width `w` at `off` meets; the first in the rule's order where it
meets several (log 19). -/
def hostFaultOf (bufBytes : Nat) (w : Width) (off : Offset) : Option HostFaultCause :=
  if off.toNat % w.bytes ≠ 0 then some .misaligned
  else if 0x18 ≤ off.toNat ∧ off.toNat < 0x10000 then some .reservedOffset
  else if off.toNat < 0x18 ∧ w ≠ .w4 then some .registerWidth
  else if 0x10000 ≤ off.toNat ∧ bufBytes < off.toNat - 0x10000 + w.bytes then some .beyondBuffer
  else none

/-- What an access that does not fault reaches (spec/20_memory.md R31, R32; spec/10_state.md R12): offsets below 0x10000 are then
the aligned words 0x00000 to 0x00014. -/
def targetOf (off : Offset) : Target :=
  if 0x10000 ≤ off.toNat then .buf (off.toNat - 0x10000)
  else if off = Reg.offset .ctrl then .reg .ctrl
  else if off = Reg.offset .cmd then .reg .cmd
  else if off = Reg.offset .status then .reg .status
  else if off = Reg.offset .len then .reg .len
  else if off = Reg.offset .result then .reg .result
  else .reg .hdr

/-- A register read (spec/20_memory.md R36); `free` is the draw that RESULT and HDR return while BUSY = 1 (R38, log 6). -/
def Block.readReg (b : Block) (free : Word) : Reg → Word
  | .ctrl => b.ctrlWord
  | .cmd => 0#32
  | .status => b.statusWord
  | .len => b.lenWord
  | .result => if b.busy then free else b.resultWord
  | .hdr => if b.busy then free else b.hdrWord

/-- The bytes the Engine may be patching (spec/20_memory.md R37). -/
def patchable (k : Nat) : Bool := k == 2 || k == 3 || k == 12 || k == 13

/-- One byte of a Host buffer read: a draw while BUSY = 1 where the Engine may be patching it (spec/20_memory.md R37) and
where it is unwritten (R41), else its value. -/
def Block.hostByte (b : Block) (free : Byte) (k : Nat) : Byte :=
  if b.busy && patchable k then free else (b.buf.read k).getD free

/-- `BusRead` of an access that does not fault. On the buffer window lane i is buf[k+i] (spec/20_memory.md R35), and a drawn lane
is lane i of the draw (log 7). -/
def Block.busRead (b : Block) (free : Word) (w : Width) (off : Offset) : Word :=
  match targetOf off with
  | .reg r => b.readReg free r
  | .buf k => ofLanes w fun i => b.hostByte (lane free i) (k + i)

/-- A register write (spec/20_memory.md R36, R37; spec/30_encoding.md R52, R53). While BUSY = 1 a write to CTRL, LEN or CMD is
dropped and recorded in BUSYWR; a write to STATUS acts; writes to RESULT and HDR are ignored. -/
def Block.writeReg (b : Block) (d : Word) : Reg → Block
  | .ctrl => if b.busy then b.dropWrite else { b with ctrl := ctrlOfWord d }
  | .cmd => if b.busy then b.dropWrite else b.accept d
  | .status => { b with status := b.status.clearedBy d }
  | .len => if b.busy then b.dropWrite else { b with len := lenOfWord d }
  | .result => b
  | .hdr => b

/-- A buffer write: dropped and recorded in BUSYWR while BUSY = 1 (spec/20_memory.md R37), else by lanes (R35). -/
def Block.writeBuf (b : Block) (k : Nat) (w : Width) (d : Word) : Block :=
  if b.busy then b.dropWrite else { b with buf := b.buf.busWrite k w d }

/-- `BusWrite` of an access that does not fault. -/
def Block.busWrite (b : Block) (w : Width) (off : Offset) (d : Word) : Block :=
  match targetOf off with
  | .reg r => b.writeReg d r
  | .buf k => b.writeBuf k w d

end Sys2Proof.Machine
end

