-- ==== Sys2Proof/Machine/HostAgent.lean ====
section
/-!
DEFINITION. The Host agent: one operation of its program at a time (spec/20_memory.md R30, R42, R43; spec/30_encoding.md R59).
-/

namespace Sys2Proof.Machine

/-- The draw of the Host's next read (log 4). -/
def State.freeWord (s : State) : Word := Config.freeWord s.host.draws

/-- The value a Host read of width `w` at `off` returns: any value of that width while `rst` is asserted
(spec/70_reset_and_hazards.md R120), else `Block.busRead`. -/
def State.hostReadValue (s : State) (w : Width) (off : Offset) : Word :=
  if s.rst then ofLanes w (lane s.freeWord) else s.block.busRead s.freeWord w off

/-- The Host after a read into variable `r`: the variable holds the value, the next read draws anew, and the program goes on
with `rest`. -/
def HostAgent.received (h : HostAgent) (r : Nat) (v : Word) (rest : List HostOp) : HostAgent :=
  { program := rest, vars := Sparse.write h.vars r v, draws := h.draws + 1 }

/-- `r ← BusRead(off, w)`: the block does not change, for "reads have no side effects" (spec/20_memory.md R39). -/
def State.hostLoad (s : State) (r : Nat) (w : Width) (off : Offset) (rest : List HostOp) :
    Host.Outcome State Fault Refusal :=
  match hostFaultOf s.block.bufBytes w off with
  | some cause => .fault (.hostFault cause)
  | none => .next { s with host := s.host.received r (s.hostReadValue w off) rest }

/-- `BusWrite(off, w, d)`: without effect while `rst` is asserted (spec/70_reset_and_hazards.md R120). A HostFault comes first
(spec/20_memory.md R33; log 8). -/
def State.hostStore (s : State) (w : Width) (off : Offset) (d : Word) (rest : List HostOp) :
    Host.Outcome State Fault Refusal :=
  match hostFaultOf s.block.bufBytes w off with
  | some cause => .fault (.hostFault cause)
  | none =>
    .next { s with
      block := if s.rst then s.block else s.block.busWrite w off d
      host := { s.host with program := rest } }

/-- `wait`: one read of STATUS; while its bit 0 is 1 the Host stays at the loop (spec/30_encoding.md R59, log 13). -/
def State.hostWait (s : State) (t : Nat) (rest : List HostOp) : Host.Outcome State Fault Refusal :=
  s.hostLoad t .w4 (Reg.offset .status)
    (if (s.hostReadValue .w4 (Reg.offset .status)).getLsbD 0 then s.host.program else rest)

/-- Waiting for `irq` (spec/20_memory.md R43, spec/60_exceptions.md R104): the Host samples the level and goes on where it is
asserted, else stays. It is no bus access: the block does not change and nothing is drawn (log 21). -/
def State.hostWaitIrq (s : State) (rest : List HostOp) : Host.Outcome State Fault Refusal :=
  .next { s with host := { s.host with program := if s.block.irq then rest else s.host.program } }

/-- The Host's next operation; a Host with none left does nothing. -/
def State.hostTurn (s : State) : Host.Outcome State Fault Refusal :=
  match s.host.program with
  | [] => .next s
  | .store w off d :: rest => s.hostStore w off d rest
  | .load r w off :: rest => s.hostLoad r w off rest
  | .wait t :: rest => s.hostWait t rest
  | .waitIrq :: rest => s.hostWaitIrq rest

/-! ### The pseudo-instructions of spec/30_encoding.md R59 -/

/-- `cmd.csum`, `cmd.gen`, `cmd.val`, `cmd.plen`: `sw CMD, <command word>`. -/
def HostOp.cmd (i : Instr) : HostOp := .store .w4 (Reg.offset .cmd) (encode i)

/-- `clrdone`: `sw STATUS, 0x00000002`. -/
def HostOp.clrdone : HostOp := .store .w4 (Reg.offset .status) 0x00000002#32

/-- `clrbusywr`: `sw STATUS, 0x00000004`. -/
def HostOp.clrbusywr : HostOp := .store .w4 (Reg.offset .status) 0x00000004#32

/-- `setlen n`: `sw LEN, n`. -/
def HostOp.setlen (n : Word) : HostOp := .store .w4 (Reg.offset .len) n

end Sys2Proof.Machine
end

