-- ==== Sys2Proof/Machine/Engine.lean ====
section
/-!
DEFINITION. The Engine's complete step from the latch's word, and one scheduled turn of the machine
(spec/10_state.md R10, spec/30_encoding.md R51, R54).
-/

namespace Sys2Proof.Machine

/-- The rule of an illegal word: `raise Error(ILLEGAL_CMD)` before any other check (spec/30_encoding.md R54). -/
def illegalRule (_ : Latch) (b : Block) : CmdResult := .ends .illegalCmd b

/-- The Engine's turn: the complete step of the command that P.word selects ("done at completion by the Engine from `P.word`",
spec/30_encoding.md R51). While BUSY = 0 it is not enabled and nothing happens (spec/10_state.md R10). -/
def State.engineTurn (s : State) : Host.Outcome State Fault Refusal :=
  match s.block.latch with
  | none => .next s
  | some p =>
    match decode p.word with
    | .ok i => exec i s
    | .error _ => s.runCommand illegalRule

/-- One turn the schedule names. -/
def State.takeTurn (s : State) : Turn → Host.Outcome State Fault Refusal
  | .host => s.hostTurn
  | .engine => s.engineTurn
  | .rst level => .next (s.driveRst level)

/-- One step of the machine. Where the schedule names no turn, a pending command completes before the Host's next access, so that
every accepted command completes (weak fairness, spec/70_reset_and_hazards.md R131; log 9). -/
def State.advance (s : State) : Host.Outcome State Fault Refusal :=
  match s.sched with
  | t :: rest => { s with sched := rest }.takeTurn t
  | [] => if s.block.busy then s.engineTurn else s.hostTurn

/-- The state whose very next step completes the command word `d`: the command accepted as by a CMD write (spec/30_encoding.md
R52), `rst` released, the Engine's turn next (log 10). -/
def State.withCommand (s : State) (d : Word) : State :=
  { s with block := s.block.accept d, rst := false, sched := .engine :: s.sched }

end Sys2Proof.Machine
end

