-- ==== Sys2Proof/Machine/Step.lean ====
section
/-!
DEFINITION. The step function and the state in which a given command word is the next thing to run.
-/

namespace Sys2Proof.Machine

/-- One step (spec/10_state.md R10, R30; `State.advance`). -/
def step (s : State) : Host.Outcome State Fault Refusal := s.advance

/-- `s` with the command word of the table's bits `w` placed where the Engine takes its next command: the latch. -/
def State.withFetchWord (s : State) (nbits w : Nat) : State :=
  s.withCommand (BitVec.ofNat 32 (tableBits nbits w))

end Sys2Proof.Machine
end

