-- ==== Sys2Proof/Machine/System.lean ====
section
/-!
DEFINITION. Several blocks in one system (spec/00_scope.md R5 INSTANCES, spec/60_exceptions.md R114): each has its own
registers, buffer, Engine and irq, at its own BASE, with its own IRQ_LINE; no state is shared (logs 17, 20).
-/

namespace Sys2Proof.Machine

/-- One block in its place. -/
structure BlockUnit where
  /-- BASE: where the block's offset 0 lies in the system's address space (spec/20_memory.md R31). -/
  base : Nat
  /-- IRQ_LINE: the line its `irq` is routed to (spec/60_exceptions.md R104). -/
  irqLine : Nat
  /-- The block with its Host and schedule. -/
  machine : State
  deriving DecidableEq, Repr

/-- A system: at least one block, at distinct BASE addresses (`System.wf`); the order of the list counts only in
`System.locate` (log 20). -/
abbrev System := List BlockUnit

/-- "INSTANCES (≥ 1) blocks at distinct BASE addresses" (spec/60_exceptions.md R114). The ranges of two blocks may overlap, as
far as the rule says (log 20). -/
abbrev System.wf (sys : System) : Prop := sys ≠ [] ∧ (sys.map BlockUnit.base).Pairwise (· ≠ ·)

/-- One step of the block number `j`; no other block changes, and a number without a block has no step. -/
def System.stepAt (sys : System) (j : Nat) : Host.Outcome System Fault Refusal :=
  match sys[j]? with
  | none => .next sys
  | some u =>
    match step u.machine with
    | .next t => .next (sys.set j { u with machine := t })
    | .fault r => .fault r
    | .refused r => .refused r

/-- A line is asserted while some block routed to it asserts its irq (spec/10_state.md R26, spec/60_exceptions.md R104). -/
def System.irqLevel (sys : System) (line : Nat) : Bool :=
  sys.any fun u => u.irqLine == line && u.machine.block.irq

/-- The system address of a block's offset (spec/20_memory.md R31). -/
def BlockUnit.address (u : BlockUnit) (off : Offset) : Nat := u.base + off.toNat

/-- The block and offset a system address belongs to: offsets are 0x00000 to 0x1FFFF (spec/20_memory.md R30, R31). DESIGN CHOICE
(log 20): the spec asks only for distinct BASE addresses and does not say which block an address reaches where the ranges of
two blocks overlap; the model takes the first block in the list. -/
def System.locate (sys : System) (address : Nat) : Option (BlockUnit × Offset) :=
  (sys.find? fun u => decide (u.base ≤ address) && decide (address < u.base + 0x20000)).map
    fun u => (u, BitVec.ofNat 17 (address - u.base))

end Sys2Proof.Machine
end

