-- ==== Sys2Proof/Safety.lean ====
section
/-!
DEFINITION. What claims about safe runs are stated in: the invariant every step keeps, when a command has its packet, and
when a Host's operation meets no HostFault.
-/

namespace Sys2Proof.Machine

/-- What holds of every state a run reaches from reset. -/
structure State.Inv (s : State) : Prop where
  /-- 24 ≤ BUF_BYTES ≤ 65535 (spec/00_scope.md R5). -/
  capacity : capacityLegal s.block.bufBytes = true
  /-- The buffer is in canonical form. -/
  bufferCanonical : Memory.wf s.block.buf
  /-- Every written byte lies inside the buffer (spec/10_state.md R25). -/
  bufferInside : ∀ c ∈ s.block.buf, c.1 < s.block.bufBytes
  /-- The Host's variables are in canonical form. -/
  varsCanonical : Sparse.wf s.host.vars
  /-- While BUSY = 1 the latch agrees with the live registers (spec/10_state.md R27), DONE is 0 (R18) and ERRCODE is 0
  (spec/20_memory.md R38). -/
  pending : ∀ p, s.block.latch = some p →
    p.n = s.block.len ∧ p.lenchk = s.block.ctrl.lenCheck ∧
      s.block.status.done = false ∧ s.block.status.errCode = .none
  /-- While `rst` is asserted every register and the buffer stand at reset (spec/70_reset_and_hazards.md R120, R121). -/
  inReset : s.rst = true → s.block = Block.reset s.block.bufBytes

/-- N is in range and every byte of the packet has been written (spec/70_reset_and_hazards.md R123 (a), (b)): what a command
needs to run past its range checks and the model's UninitRead. -/
structure Block.PacketReady (b : Block) (n : Nat) : Prop where
  /-- 24 ≤ N. -/
  atLeast : 24 ≤ n
  /-- N ≤ BUF_BYTES. -/
  fits : n ≤ b.bufBytes
  /-- buf[0 … N−1] is written. -/
  written : ∀ k, k < n → (b.buf.read k).isSome = true

/-- The Host operation meets no HostFault (spec/20_memory.md R33). -/
def HostOp.legal (bufBytes : Nat) : HostOp → Bool
  | .store w off _ => (hostFaultOf bufBytes w off).isNone
  | .load _ w off => (hostFaultOf bufBytes w off).isNone
  | .wait _ => true
  | .waitIrq => true

/-- Two buffers hold the same at every offset but those where `p` is true (unwritten counts as a value of its own). -/
def Memory.sameExcept (p : Nat → Bool) (m m' : Memory) : Prop :=
  ∀ k, p k = false → m'.read k = m.read k

/-- The range checks of spec/40_checksum.md R75 for the command `i` at `s`: the command ends with LEN_RANGE or TRUNCATED, and
nothing but the completion's own record (spec/60_exceptions.md R100) changes. -/
def RangeChecked (i : Instr) (s : State) (p : Latch) : Prop :=
  (s.block.bufBytes < p.n.toNat → exec i s = .next { s with block := { s.block with
      latch := none, status := { s.block.status with done := true, errCode := .lenRange } } }) ∧
  (p.n.toNat ≤ s.block.bufBytes → p.n.toNat < 24 → exec i s = .next { s with block := { s.block with
      latch := none, status := { s.block.status with done := true, errCode := .truncated } } })

/-- HDR as the header capture of spec/40_checksum.md R75 leaves it: bytes 2, 3 and 12, 13 as they stand, big-endian. -/
def Memory.capturedHdr (m : Memory) : Hdr :=
  { lenf := m.byte 2 ++ m.byte 3, ckf := m.byte 12 ++ m.byte 13 }

/-- The Host's next operation is `op` and the schedule gives it the turn. -/
structure State.HostNext (s : State) (op : HostOp) (rest : List HostOp) (turns : List Turn) : Prop where
  /-- The operation is at the head of the program. -/
  program : s.host.program = op :: rest
  /-- The Host has the turn. -/
  turn : s.sched = .host :: turns

end Sys2Proof.Machine
end

