-- ==== Sys2Proof/Certificates/Slice0/Obligations.lean ====
section
/-!
DEFINITION. The statements for the provers, from the numbered rules of spec/.
-/

open Sys2Proof Sys2Proof.Machine

/-! ### Command words (30_encoding.md) -/

/-- R51: the four legal words and what they select; reserved opcodes, and OPCODE 1 to 4 under a nonzero RSVD, are illegal. -/
def Obligations.CommandWordsDecodeAsTheTable : Prop :=
  decode 0x00000001#32 = .ok .csum ∧ decode 0x00000002#32 = .ok .gen ∧
  decode 0x00000003#32 = .ok .val ∧ decode 0x00000004#32 = .ok .plen ∧
  decode 0x00000000#32 = .error (.reservedOpcode 0x0#4) ∧ decode 0x00000005#32 = .error (.reservedOpcode 0x5#4) ∧
  decode 0x0000000F#32 = .error (.reservedOpcode 0xF#4) ∧
  decode 0x00000011#32 = .error (.reservedBits 0x1#28) ∧ decode 0x80000003#32 = .error (.reservedBits 0x8000000#28)

/-- R51: every command's word decodes to it, no other word does, the words that decode are exactly the legal ones, and the Engine
decodes P.word when it completes. -/
def Obligations.DecodeAndEncodeAgree : Prop :=
  (∀ i : Instr, decode (encode i) = .ok i) ∧
  (∀ (d : Word) (i : Instr), decode d = .ok i → d = encode i) ∧
  (∀ d : Word, (∃ i, decode d = .ok i) ↔ d = 1#32 ∨ d = 2#32 ∨ d = 3#32 ∨ d = 4#32) ∧
  (∀ (s : State) (p : Latch) (i : Instr), s.block.latch = some p → decode p.word = .ok i → s.engineTurn = exec i s)

/-- R54: the Engine completes an illegal word with ILLEGAL_CMD (ERRCODE 1) before any other check and changes nothing else of the
machine. That a pending command moves first where no turn is scheduled is the model's choice (log 9, DESIGN CHOICE). -/
def Obligations.IllegalWordOnlyReportsIllegalCmd : Prop :=
  ErrCode.illegalCmd.code = 1#4 ∧
  ∀ (s : State) (p : Latch), s.block.latch = some p →
    p.word ≠ 1#32 → p.word ≠ 2#32 → p.word ≠ 3#32 → p.word ≠ 4#32 →
    (∀ turns, s.sched = .engine :: turns → step s = .next { s with
      block := { s.block with
        latch := none
        status := { s.block.status with done := true, errCode := .illegalCmd } }
      sched := turns }) ∧
    (s.sched = [] → step s = .next { s with
      block := { s.block with
        latch := none
        status := { s.block.status with done := true, errCode := .illegalCmd } } })

/-- R10, R51, R100: at the Engine's turn a step of the machine with a legal word pending is `exec` of the decoded command; so it
is where no turn is scheduled, by the model's choice (log 9, DESIGN CHOICE: a pending command then moves first). -/
def Obligations.StepRunsTheDecodedCommand : Prop :=
  ∀ (s : State) (p : Latch) (i : Instr), s.block.latch = some p → decode p.word = .ok i →
    (∀ turns, s.sched = .engine :: turns → step s = exec i { s with sched := turns }) ∧
    (s.sched = [] → step s = exec i s)

/-- A command word placed by `withFetchWord` runs at the very next step, from every state, on LEN.N and CTRL.LEN_CHECK as they
stand (log 10). -/
def Obligations.FetchWordRunsNext : Prop :=
  ∀ (s : State) (i : Instr),
    step (s.withFetchWord 32 (encode i).toNat) = exec i { s with
      block := { s.block with
        latch := some { word := encode i, n := s.block.len, lenchk := s.block.ctrl.lenCheck }
        status := { s.block.status with done := false, errCode := .none } }
      rst := false }

/-! ### Host writes (10_state.md, 20_memory.md, 30_encoding.md) -/

/-- R52: a CMD write while BUSY = 0 accepts the command, whatever the word. -/
def Obligations.CmdWriteWhenIdleAccepts : Prop :=
  ∀ (s : State) (d : Word) (rest : List HostOp) (turns : List Turn),
    s.HostNext (.store .w4 0x00004#17 d) rest turns → s.rst = false → s.block.busy = false →
    step s = .next { s with
      block := { s.block with
        latch := some { word := d, n := s.block.len, lenchk := s.block.ctrl.lenCheck }
        status := { s.block.status with done := false, errCode := .none } }
      host := { s.host with program := rest }
      sched := turns }

/-- R19, R37, R53: while BUSY = 1 a write to CTRL, CMD, LEN or the buffer is dropped and sets BUSYWR; nothing else changes. -/
def Obligations.WritesWhileBusyAreDropped : Prop :=
  ∀ (s : State) (w : Width) (off : Offset) (d : Word) (rest : List HostOp) (turns : List Turn),
    s.HostNext (.store w off d) rest turns → s.rst = false → s.block.busy = true →
    hostFaultOf s.block.bufBytes w off = none →
    (off = 0x00000#17 ∨ off = 0x00004#17 ∨ off = 0x0000C#17 ∨ 0x10000 ≤ off.toNat) →
    step s = .next { s with
      block := { s.block with status := { s.block.status with busyWr := true } }
      host := { s.host with program := rest }
      sched := turns }

/-- R18, R19, R21: a STATUS write, BUSY or not, clears DONE and BUSYWR where its data bits 1 and 2 are 1, and changes nothing
else; bits 3 and 31:8 read 0. -/
def Obligations.StatusWriteClearsOnlyDoneAndBusyWr : Prop :=
  (∀ b : Block, b.statusWord.extractLsb' 3 1 = 0#1 ∧ b.statusWord.extractLsb' 8 24 = 0#24) ∧
  ∀ (s : State) (d : Word) (rest : List HostOp) (turns : List Turn),
    s.HostNext (.store .w4 0x00008#17 d) rest turns → s.rst = false →
    step s = .next { s with
      block := { s.block with status := { s.block.status with
        done := if d.getLsbD 1 then false else s.block.status.done
        busyWr := if d.getLsbD 2 then false else s.block.status.busyWr } }
      host := { s.host with program := rest }
      sched := turns }

/-- R13, R14, R15, R22: while BUSY = 0 a CTRL write sets IE and LEN_CHECK from bits 0 and 1, a LEN write sets N from bits 15:0,
and nothing else changes; the reserved bits of both read 0. -/
def Obligations.CtrlAndLenWritesWhenIdle : Prop :=
  (∀ b : Block, b.ctrlWord.extractLsb' 2 30 = 0#30 ∧ b.lenWord.extractLsb' 16 16 = 0#16) ∧
  ∀ (s : State) (d : Word) (rest : List HostOp) (turns : List Turn), s.rst = false → s.block.busy = false →
    (s.HostNext (.store .w4 0x00000#17 d) rest turns → step s = .next { s with
      block := { s.block with ctrl := { ie := d.getLsbD 0, lenCheck := d.getLsbD 1 } }
      host := { s.host with program := rest }
      sched := turns }) ∧
    (s.HostNext (.store .w4 0x0000C#17 d) rest turns → step s = .next { s with
      block := { s.block with len := d.extractLsb' 0 16 }
      host := { s.host with program := rest }
      sched := turns })

/-- R23, R24, R36: writes to RESULT and HDR are ignored, BUSY or not. -/
def Obligations.ResultAndHdrIgnoreWrites : Prop :=
  ∀ (s : State) (off : Offset) (d : Word) (rest : List HostOp) (turns : List Turn),
    s.HostNext (.store .w4 off d) rest turns → (off = 0x00010#17 ∨ off = 0x00014#17) →
    step s = .next { s with host := { s.host with program := rest }, sched := turns }

/-- R32, R35: while BUSY = 0 a buffer write of w bytes at offset k puts data lane i into buf[k+i]; every other byte of the buffer,
every register and the latch stay. -/
def Obligations.BufferWriteGoesByLanes : Prop :=
  ∀ (s : State) (w : Width) (off : Offset) (k : Nat) (d : Word) (rest : List HostOp) (turns : List Turn),
    s.HostNext (.store w off d) rest turns → s.rst = false → s.block.busy = false →
    off.toNat = 0x10000 + k → off.toNat % w.bytes = 0 → k + w.bytes ≤ s.block.bufBytes →
    ∃ m, step s = .next { s with
        block := { s.block with buf := m }
        host := { s.host with program := rest }
        sched := turns } ∧
      (∀ i, i < w.bytes → Memory.read m (k + i) = some (d.extractLsb' (8 * i) 8)) ∧
      (∀ j, j < k ∨ k + w.bytes ≤ j → Memory.read m j = s.block.buf.read j)

/-! ### Host reads (20_memory.md) -/

/-- R39: a read that does not fault changes no state of the block, whatever it reads and also while BUSY = 1 or `rst` is
asserted; only the Host receives a value (its counter of draws advances: log 4, DESIGN CHOICE). -/
def Obligations.ReadsHaveNoSideEffects : Prop :=
  ∀ (s : State) (r : Nat) (w : Width) (off : Offset) (rest : List HostOp) (turns : List Turn),
    s.HostNext (.load r w off) rest turns → hostFaultOf s.block.bufBytes w off = none →
    ∃ v, step s = .next { s with
      host := { program := rest, vars := Sparse.write s.host.vars r v, draws := s.host.draws + 1 }
      sched := turns }

/-- R12, R36 with R13 to R24: while BUSY = 0 every register reads as its fields in their places, the reserved bits and CMD as
0 (the Host's counter of draws advances with every read: log 4, DESIGN CHOICE). -/
def Obligations.RegistersReadAsTheirFields : Prop :=
  ∀ (s : State) (r : Nat) (off : Offset) (rest : List HostOp) (turns : List Turn),
    s.HostNext (.load r .w4 off) rest turns → s.rst = false → s.block.busy = false →
    ∀ v : Nat,
      ((off = 0x00000#17 ∧ v = 2 * s.block.ctrl.lenCheck.toNat + s.block.ctrl.ie.toNat) ∨
       (off = 0x00004#17 ∧ v = 0) ∨
       (off = 0x00008#17 ∧ v = 16 * s.block.status.errCode.code.toNat + 4 * s.block.status.busyWr.toNat +
          2 * s.block.status.done.toNat) ∨
       (off = 0x0000C#17 ∧ v = s.block.len.toNat) ∨
       (off = 0x00010#17 ∧ v = s.block.result.toNat) ∨
       (off = 0x00014#17 ∧ v = 65536 * s.block.hdr.lenf.toNat + s.block.hdr.ckf.toNat)) →
      step s = .next { s with
        host := { program := rest, vars := Sparse.write s.host.vars r (BitVec.ofNat 32 v), draws := s.host.draws + 1 }
        sched := turns }

/-- R38, and R16 for CMD: while BUSY = 1 a read of RESULT or HDR returns any value, CTRL, LEN and STATUS return their current
values, with BUSY 1, DONE 0 and ERRCODE 0 in STATUS, and CMD reads 0. The state is one that the invariant admits. The model's
own: "any value" is the read's free value (log 4, DESIGN CHOICE), and it is the whole word, RESULT's reserved bits 31:16
included (log 6, DEDUCED). -/
def Obligations.RegisterReadsWhileBusy : Prop :=
  ∀ (s : State) (r : Nat) (off : Offset) (rest : List HostOp) (turns : List Turn),
    s.HostNext (.load r .w4 off) rest turns → s.rst = false → s.block.busy = true → s.Inv →
    ∀ v : Word,
      (((off = 0x00010#17 ∨ off = 0x00014#17) ∧ v = Config.freeWord s.host.draws) ∨
       (off = 0x00004#17 ∧ v = 0#32) ∨
       (off = 0x00000#17 ∧ v = BitVec.ofNat 32 (2 * s.block.ctrl.lenCheck.toNat + s.block.ctrl.ie.toNat)) ∨
       (off = 0x0000C#17 ∧ v = BitVec.ofNat 32 s.block.len.toNat) ∨
       (off = 0x00008#17 ∧ v = BitVec.ofNat 32 (4 * s.block.status.busyWr.toNat + 1))) →
      step s = .next { s with
        host := { program := rest, vars := Sparse.write s.host.vars r v, draws := s.host.draws + 1 }
        sched := turns }

/-- R32, R35, R37, R41: a buffer read returns buf[k+i] in lane i; a byte that is unwritten, or is byte 2, 3, 12 or 13 while
BUSY = 1, reads as any value. The model's own: zeros beyond the width (log 13, DESIGN CHOICE), and a draw of such a lane alone
as that lane of the read's free value (log 7, DEDUCED; log 4). -/
def Obligations.BufferReadGoesByLanes : Prop :=
  ∀ (s : State) (r : Nat) (w : Width) (off : Offset) (k : Nat) (rest : List HostOp) (turns : List Turn),
    s.HostNext (.load r w off) rest turns → s.rst = false →
    off.toNat = 0x10000 + k → off.toNat % w.bytes = 0 → k + w.bytes ≤ s.block.bufBytes →
    ∃ v : Word, step s = .next { s with
        host := { program := rest, vars := Sparse.write s.host.vars r v, draws := s.host.draws + 1 }
        sched := turns } ∧
      (∀ i, i < 4 → w.bytes ≤ i → v.extractLsb' (8 * i) 8 = 0#8) ∧
      (∀ i, i < w.bytes →
        v.extractLsb' (8 * i) 8 =
          if s.block.busy = true ∧ (k + i = 2 ∨ k + i = 3 ∨ k + i = 12 ∨ k + i = 13) then
            (Config.freeWord s.host.draws).extractLsb' (8 * i) 8
          else
            match s.block.buf.read (k + i) with
            | some byte => byte
            | none => (Config.freeWord s.host.draws).extractLsb' (8 * i) 8)

/-- R33: a Host access raises HostFault exactly when one of the rule's four conditions holds. -/
def Obligations.HostFaultExactlyWhenR33 : Prop :=
  ∀ (s : State) (r : Nat) (w : Width) (off : Offset) (d : Word) (rest : List HostOp) (turns : List Turn),
    s.HostNext (.load r w off) rest turns ∨ s.HostNext (.store w off d) rest turns → s.rst = false →
    ((∃ cause, step s = .fault (.hostFault cause)) ↔
      (off.toNat % w.bytes ≠ 0 ∨
       (0x00018 ≤ off.toNat ∧ off.toNat ≤ 0x0FFFF) ∨
       (off.toNat ≤ 0x00017 ∧ w.bytes ≠ 4) ∨
       (0x10000 ≤ off.toNat ∧ s.block.bufBytes < off.toNat - 0x10000 + w.bytes)))

/-- R59: one turn of the `wait` loop reads STATUS; while BUSY = 1 the Host stays at the loop, else it goes on. One read
a turn (log 13) and the counter of draws (log 4) are the model's own, both DESIGN CHOICE. -/
def Obligations.WaitLoopsWhileBusy : Prop :=
  ∀ (s : State) (t : Nat) (rest : List HostOp) (turns : List Turn),
    s.HostNext (.wait t) rest turns → s.rst = false →
    step s = .next { s with
      host :=
        { program := if s.block.busy then .wait t :: rest else rest
          vars := Sparse.write s.host.vars t (BitVec.ofNat 32
            (16 * s.block.status.errCode.code.toNat + 4 * s.block.status.busyWr.toNat +
              2 * s.block.status.done.toNat + s.block.busy.toNat))
          draws := s.host.draws + 1 }
      sched := turns }

/-- R27, R45, R126: while a command is pending no Host access changes its latch, LEN, CTRL, the buffer, RESULT or HDR: the
command sees what stood at acceptance. -/
def Obligations.PendingCommandIsIsolatedFromTheHost : Prop :=
  ∀ (s t : State) (turns : List Turn), s.block.busy = true → s.rst = false → s.sched = .host :: turns →
    step s = .next t →
    t.block = { s.block with status := { s.block.status with
      done := t.block.status.done, busyWr := t.block.status.busyWr } } ∧
    (s.block.status.done = false → t.block.status.done = false)

/-- R7, R8: MemWrite puts the most significant byte at the lowest offset and touches no other byte, and MemRead of the same n bytes
reads the value back, for every n. -/
def Obligations.PacketFieldsAreBigEndian : Prop :=
  ∀ (m : Memory) (k n : Nat) (v : BitVec (8 * n)),
    (m.memWrite k n v).memRead k n = v ∧
    (∀ i, i < n → (m.memWrite k n v).read (k + i) = some (v.extractLsb' (8 * (n - 1 - i)) 8)) ∧
    (∀ j, j < k ∨ k + n ≤ j → (m.memWrite k n v).read j = m.read j)

/-! ### The range checks and the four commands (40_checksum.md, 41_length_generate.md) -/

/-- R75: every command checks N against BUF_BYTES, then against 24, and captures the header's fields into HDR before any
patch. -/
def Obligations.EveryCommandChecksRangeAndCapturesHeader : Prop :=
  ∀ (i : Instr) (s : State) (p : Latch), s.block.latch = some p →
    RangeChecked i s p ∧
    (s.block.PacketReady p.n.toNat → ∃ t, exec i s = .next t ∧ t.block.hdr = s.block.buf.capturedHdr ∧
      t.block.status.errCode ≠ .lenRange ∧ t.block.status.errCode ≠ .truncated)

/-- R76: CSUM writes Checksum(N) to RESULT, captures HDR, completes without error; nothing else changes. -/
def Obligations.CsumComputesChecksum : Prop :=
  decode 0x00000001#32 = .ok .csum ∧
  ∀ (s : State) (p : Latch), s.block.latch = some p → RangeChecked .csum s p ∧
    (s.block.PacketReady p.n.toNat → exec .csum s = .next { s with block := { s.block with
      result := checksum s.block.buf p.n.toNat
      hdr := s.block.buf.capturedHdr
      latch := none
      status := { s.block.status with done := true, errCode := .none } } })

/-- R77: VAL writes Checksum(N) to RESULT whatever the outcome, and reports the first of the three checks that fails; nothing
else changes. -/
def Obligations.ValChecksInOrder : Prop :=
  decode 0x00000003#32 = .ok .val ∧
  ∀ (s : State) (p : Latch), s.block.latch = some p → RangeChecked .val s p ∧
    (s.block.PacketReady p.n.toNat → exec .val s = .next { s with block := { s.block with
      result := checksum s.block.buf p.n.toNat
      hdr := s.block.buf.capturedHdr
      latch := none
      status := { s.block.status with
        done := true
        errCode :=
          if checksum s.block.buf p.n.toNat ≠ s.block.buf.byte 12 ++ s.block.buf.byte 13 then .checksumMismatch
          else if p.lenchk = true ∧ s.block.buf.byte 2 ++ s.block.buf.byte 3 ≠ p.n then .lengthMismatch
          else if s.block.buf.byte 14 ++ s.block.buf.byte 15 ≠ 0#16 then .authUnsupported
          else .none } } })

/-- R90: PLEN writes N into bytes 2 and 3, big-endian; every other byte, RESULT and every other register stay, HDR is
captured. -/
def Obligations.PlenPatchesLength : Prop :=
  decode 0x00000004#32 = .ok .plen ∧
  ∀ (s : State) (p : Latch), s.block.latch = some p → RangeChecked .plen s p ∧
    (s.block.PacketReady p.n.toNat → ∃ m, exec .plen s = .next { s with block := { s.block with
        buf := m
        hdr := s.block.buf.capturedHdr
        latch := none
        status := { s.block.status with done := true, errCode := .none } } } ∧
      Memory.read m 2 = some (p.n.extractLsb' 8 8) ∧ Memory.read m 3 = some (p.n.extractLsb' 0 8) ∧
      ∀ k, k ≠ 2 → k ≠ 3 → Memory.read m k = s.block.buf.read k)

/-- R91: GEN with a nonzero auth type only captures HDR and reports AUTH_UNSUPPORTED; with auth type 0 it patches the length,
then the checksum of the patched packet (into bytes 12, 13 and RESULT); every other byte and register stays. -/
def Obligations.GenPatchesLengthThenChecksum : Prop :=
  decode 0x00000002#32 = .ok .gen ∧
  ∀ (s : State) (p : Latch), s.block.latch = some p → RangeChecked .gen s p ∧
    (s.block.PacketReady p.n.toNat →
      (s.block.buf.byte 14 ++ s.block.buf.byte 15 ≠ 0#16 → exec .gen s = .next { s with block := { s.block with
        hdr := s.block.buf.capturedHdr
        latch := none
        status := { s.block.status with done := true, errCode := .authUnsupported } } }) ∧
      (s.block.buf.byte 14 ++ s.block.buf.byte 15 = 0#16 → ∃ patched m c, exec .gen s = .next { s with
          block := { s.block with
            buf := m
            result := c
            hdr := s.block.buf.capturedHdr
            latch := none
            status := { s.block.status with done := true, errCode := .none } } } ∧
        c = checksum patched p.n.toNat ∧
        Memory.read patched 2 = some (p.n.extractLsb' 8 8) ∧ Memory.read patched 3 = some (p.n.extractLsb' 0 8) ∧
        (∀ k, k ≠ 2 → k ≠ 3 → Memory.read patched k = s.block.buf.read k) ∧
        Memory.read m 12 = some (c.extractLsb' 8 8) ∧ Memory.read m 13 = some (c.extractLsb' 0 8) ∧
        (∀ k, k ≠ 12 → k ≠ 13 → Memory.read m k = Memory.read patched k)))

/-- R41 (as log 2 reads it): a command whose range checks pass and whose range covers an unwritten byte stops with UninitRead at
the lowest such byte, whichever command it is. -/
def Obligations.UnwrittenByteInRangeStopsTheCommand : Prop :=
  ∀ (i : Instr) (s : State) (p : Latch) (k : Nat), s.block.latch = some p →
    24 ≤ p.n.toNat → p.n.toNat ≤ s.block.bufBytes → k < p.n.toNat → s.block.buf.read k = none →
    (∀ j, j < k → s.block.buf.read j ≠ none) →
    exec i s = .fault (.uninitRead k)

/-! ### Completion, errors, interrupt (60_exceptions.md) -/

/-- R100: every completion sets BUSY 0, DONE 1, makes P invalid; BUSYWR, CTRL, LEN, BUF_BYTES, `rst`, the Host and the schedule
stay, and irq becomes CTRL.IE. -/
def Obligations.EveryCompletionFrame : Prop :=
  ∀ (i : Instr) (s t : State), exec i s = .next t →
    t.block.latch = none ∧ t.block.busy = false ∧ t.block.status.done = true ∧
    t.block.status.busyWr = s.block.status.busyWr ∧ t.block.ctrl = s.block.ctrl ∧ t.block.len = s.block.len ∧
    t.block.bufBytes = s.block.bufBytes ∧ t.block.irq = s.block.ctrl.ie ∧
    t.rst = s.rst ∧ t.host = s.host ∧ t.sched = s.sched

/-- R25, R56: a command writes no byte but 2, 3, 12 and 13; CSUM and VAL write none, PLEN only 2 and 3. -/
def Obligations.CommandsWriteOnlyTheirHeaderBytes : Prop :=
  ∀ (i : Instr) (s t : State), exec i s = .next t →
    (∀ k, k ≠ 2 → k ≠ 3 → k ≠ 12 → k ≠ 13 → t.block.buf.read k = s.block.buf.read k) ∧
    (i = .csum ∨ i = .val → t.block.buf = s.block.buf) ∧
    (i = .plen → ∀ k, k ≠ 2 → k ≠ 3 → t.block.buf.read k = s.block.buf.read k)

/-- R107 and R101's column "recorded": a command that fails is not tried again and leaves the packet as it was; ILLEGAL_CMD,
LEN_RANGE and TRUNCATED also leave RESULT and HDR, and AUTH_UNSUPPORTED of GEN leaves RESULT. -/
def Obligations.FailedCommandLeavesThePacket : Prop :=
  ∀ (s t : State) (p : Latch), s.block.latch = some p → s.engineTurn = .next t → t.block.status.errCode ≠ .none →
    t.block.latch = none ∧ t.block.buf = s.block.buf ∧
    (t.block.status.errCode = .illegalCmd ∨ t.block.status.errCode = .lenRange ∨ t.block.status.errCode = .truncated →
      t.block.result = s.block.result ∧ t.block.hdr = s.block.hdr) ∧
    (decode p.word = .ok .gen → t.block.result = s.block.result)

/-- R101, R102: which command raises which code, and under which cause. -/
def Obligations.ErrorCodesHaveTheirCauses : Prop :=
  ∀ (i : Instr) (s t : State) (p : Latch), s.block.latch = some p → exec i s = .next t →
    t.block.status.errCode ≠ .illegalCmd ∧
    (t.block.status.errCode = .lenRange ↔ s.block.bufBytes < p.n.toNat) ∧
    (t.block.status.errCode = .truncated ↔ p.n.toNat < 24 ∧ p.n.toNat ≤ s.block.bufBytes) ∧
    (t.block.status.errCode = .checksumMismatch → i = .val ∧ t.block.result ≠ t.block.hdr.ckf) ∧
    (t.block.status.errCode = .lengthMismatch →
      i = .val ∧ t.block.result = t.block.hdr.ckf ∧ p.lenchk = true ∧ t.block.hdr.lenf ≠ p.n) ∧
    (t.block.status.errCode = .authUnsupported →
      (i = .gen ∨ i = .val) ∧ s.block.buf.byte 14 ++ s.block.buf.byte 15 ≠ 0#16)

/-- R101: the codes as STATUS reads them. -/
def Obligations.ErrorCodeNumbers : Prop :=
  ErrCode.none.code = 0 ∧ ErrCode.illegalCmd.code = 1 ∧ ErrCode.lenRange.code = 2 ∧ ErrCode.truncated.code = 3 ∧
  ErrCode.checksumMismatch.code = 4 ∧ ErrCode.lengthMismatch.code = 5 ∧ ErrCode.authUnsupported.code = 6

/-- R26, R104: irq is CTRL.IE and DONE; every completion, whatever its outcome, sets it to CTRL.IE; accepting a command, a STATUS
write with bit 1, CTRL.IE = 0 and reset take it away, and CTRL.IE = 0 keeps DONE. -/
def Obligations.IrqIsIeAndDone : Prop :=
  ∀ (b : Block) (d : Word) (n : Nat),
    (b.irq = true ↔ b.ctrl.ie = true ∧ b.status.done = true) ∧
    (∀ code, (b.complete code).irq = b.ctrl.ie) ∧
    (b.busy = false → (b.busWrite .w4 0x00004#17 d).irq = false) ∧
    (d.getLsbD 1 = true → (b.busWrite .w4 0x00008#17 d).irq = false) ∧
    (b.busy = false → d.getLsbD 0 = false → (b.busWrite .w4 0x00000#17 d).irq = false ∧
      (b.busWrite .w4 0x00000#17 d).status.done = b.status.done) ∧
    (Block.reset n).irq = false

/-! ### The checksum's laws (40_checksum.md R72 to R74, R78, R79) -/

/-- R72: the sum of at most 65535 bytes fits 32 bits, one pass of the fold leaves at most 0x17FFE, a second, where it is needed, at
most 0x7FFF, and no third is needed. -/
def Obligations.SumFitsAndFoldsInTwoPasses : Prop :=
  ∀ (m : Memory) (n : Nat), n ≤ 65535 →
    packetSum m n ≤ 0x7FFF8000 ∧ foldPass (packetSum m n) ≤ 0x17FFE ∧
    (0xFFFF < foldPass (packetSum m n) → foldPass (foldPass (packetSum m n)) ≤ 0x7FFF) ∧
    fold (packetSum m n) =
      if packetSum m n ≤ 0xFFFF then packetSum m n
      else if foldPass (packetSum m n) ≤ 0xFFFF then foldPass (packetSum m n)
      else foldPass (foldPass (packetSum m n))

/-- R72: folding after every addition (16-bit end-around carry) gives the same F as folding the exact sum, for every packet. -/
def Obligations.EndAroundCarrySumEqualsFoldedSum : Prop :=
  ∀ (m : Memory) (n : Nat), endAroundSum m n (wordCount n) = fold (packetSum m n)

/-- R73: F is 0 exactly for S = 0, otherwise between 1 and 0xFFFF and congruent to S; the checksum is 0xFFFF exactly when every
summed byte is 0, and 0 exactly when S is a positive multiple of 0xFFFF. -/
def Obligations.FoldLaws : Prop :=
  (∀ S : Nat, (fold S = 0 ↔ S = 0) ∧ (S ≠ 0 → 1 ≤ fold S ∧ fold S ≤ 0xFFFF) ∧ fold S % 0xFFFF = S % 0xFFFF) ∧
  (∀ (m : Memory) (n : Nat),
    (checksum m n = 0xFFFF#16 ↔ ∀ k, k < n → excluded k = false → m.byte k = 0#8) ∧
    (checksum m n = 0x0000#16 ↔ ∃ c, 0 < c ∧ packetSum m n = c * 0xFFFF))

/-- R74: the checksum does not depend on bytes 12, 13 and 16 to 23, nor on zero bytes appended, nor on the order of the words. -/
def Obligations.ChecksumIndependence : Prop :=
  (∀ (m m' : Memory) (n : Nat),
    (∀ k, k ≠ 12 → k ≠ 13 → ¬(16 ≤ k ∧ k ≤ 23) → m'.read k = m.read k) → checksum m' n = checksum m n) ∧
  (∀ (m : Memory) (n extra : Nat),
    (∀ k, n ≤ k → k < n + extra → m.read k = some 0#8) → checksum m (n + extra) = checksum m n) ∧
  (∀ (m m' : Memory) (n : Nat),
    ((List.range (wordCount n)).map (summedWord m' n)).Perm ((List.range (wordCount n)).map (summedWord m n)) →
      checksum m' n = checksum m n)

/-- R78: after a VAL that passes, flipping any single bit of the packet outside the authentication region makes VAL report
CHECKSUM_MISMATCH, under either length policy. -/
def Obligations.SingleBitFlipFailsOnChecksum : Prop :=
  ∀ (s s' t : State) (p p' : Latch) (k j : Nat) (byte : Byte),
    s.block.latch = some p → exec .val s = .next t → t.block.status.errCode = .none →
    s'.block.latch = some p' → p'.n = p.n → s'.block.bufBytes = s.block.bufBytes →
    k < p.n.toNat → ¬(16 ≤ k ∧ k ≤ 23) → j < 8 →
    s.block.buf.read k = some byte → s'.block.buf.read k = some (byte ^^^ BitVec.twoPow 8 j) →
    (∀ l, l ≠ k → s'.block.buf.read l = s.block.buf.read l) →
    ∃ t', exec .val s' = .next t' ∧ t'.block.status.errCode = .checksumMismatch

/-- R79: what stands in the authentication region changes neither the outcome of a command nor RESULT. -/
def Obligations.AuthRegionDoesNotMatter : Prop :=
  ∀ (i : Instr) (s s' t : State) (m : Memory), exec i s = .next t →
    s' = { s with block := { s.block with buf := m } } →
    (∀ k, ¬(16 ≤ k ∧ k ≤ 23) → Memory.read m k = s.block.buf.read k) →
    (∀ k, 16 ≤ k → k ≤ 23 → (Memory.read m k).isSome = true) →
    ∃ t', exec i s' = .next t' ∧ t'.block.result = t.block.result ∧
      t'.block.status = t.block.status ∧ t'.block.hdr = t.block.hdr

/-- R92: after a GEN without error, a VAL of the same N with no change in bytes 0 to 15 and 24 to N−1 passes under either length
policy, whatever was written from offset N on. -/
def Obligations.GenThenValPasses : Prop :=
  ∀ (s t s' : State) (p p' : Latch), s.block.latch = some p → exec .gen s = .next t →
    t.block.status.errCode = .none →
    s'.block.latch = some p' → p'.n = p.n → s'.block.bufBytes = t.block.bufBytes →
    (∀ k, k < p.n.toNat → ¬(16 ≤ k ∧ k ≤ 23) → s'.block.buf.read k = t.block.buf.read k) →
    (∀ k, 16 ≤ k → k ≤ 23 → (s'.block.buf.read k).isSome = true) →
    ∃ t', exec .val s' = .next t' ∧ t'.block.status.errCode = .none

/-- R93: a second GEN of the same N on the buffer the first left changes no byte, writes the same RESULT and captures N and c
into HDR; PLEN then CSUM of the same N leaves in RESULT what GEN would write, and GEN's buffer but for bytes 12 and 13. The
later commands run from every state with that buffer, whatever its registers hold. -/
def Obligations.GenIsIdempotent : Prop :=
  ∀ (s t : State) (p : Latch), s.block.latch = some p → exec .gen s = .next t → t.block.status.errCode = .none →
    (∀ (s' : State) (p' : Latch), s'.block.latch = some p' → p'.n = p.n → s'.block.bufBytes = t.block.bufBytes →
      (∀ k, s'.block.buf.read k = t.block.buf.read k) →
      ∃ t', exec .gen s' = .next t' ∧ t'.block.status.errCode = .none ∧
        (∀ k, t'.block.buf.read k = t.block.buf.read k) ∧ t'.block.result = t.block.result ∧
        t'.block.hdr.lenf = p.n ∧ t'.block.hdr.ckf = t.block.result) ∧
    (∃ u, exec .plen s = .next u ∧
      ∀ (u' : State) (p' : Latch), u'.block.latch = some p' → p'.n = p.n → u'.block.bufBytes = u.block.bufBytes →
        (∀ k, u'.block.buf.read k = u.block.buf.read k) →
        ∃ v, exec .csum u' = .next v ∧ v.block.result = t.block.result ∧
          (∀ k, k ≠ 12 → k ≠ 13 → v.block.buf.read k = t.block.buf.read k))

/-! ### Reset, schedule, the whole machine (70_reset_and_hazards.md, 10_state.md) -/

/-- R29, R122: the values after reset, for every capacity: CTRL = 2, STATUS = LEN = RESULT = HDR = 0, no pending command, irq 0,
every buffer byte unwritten. The model's own: an unwritten byte is one that reads as no value (log 5, DESIGN CHOICE), State.reset
takes the capacity from the constant Config.bufBytes (log 3, DESIGN CHOICE), and it is the machine with `rst` released (log 16,
DEDUCED). -/
def Obligations.ResetValues : Prop :=
  ∀ n : Nat, (∀ free, (Block.reset n).readReg free .cmd = 0#32) ∧ (Block.reset n).ctrlWord = 0x00000002#32 ∧ (Block.reset n).statusWord = 0x00000000#32 ∧
    (Block.reset n).lenWord = 0#32 ∧ (Block.reset n).resultWord = 0#32 ∧ (Block.reset n).hdrWord = 0#32 ∧
    (Block.reset n).latch = none ∧ (Block.reset n).irq = false ∧ (∀ k, (Block.reset n).buf.read k = none) ∧
    State.reset.block = Block.reset Config.bufBytes ∧ State.reset.rst = false

/-- R122: a command issued at once after reset fails with TRUNCATED, whatever the command and the capacity. That the
command is placed by `withFetchWord` is the model's choice (log 10, DESIGN CHOICE). -/
def Obligations.CommandAtOnceAfterResetIsTruncated : Prop :=
  ∀ (i : Instr) (n w : Nat), w = (encode i).toNat →
    step ((State.resetWith n).withFetchWord 32 w) = .next { State.resetWith n with
      block := { Block.reset n with status := { done := true, busyWr := false, errCode := .truncated } } }

/-- R120, R121: asserting `rst`, and releasing it, puts the whole block at reset and abandons a pending command; while it is
asserted a Host write has no effect and a Host read returns any value and has no effect on the block. The model's own: `rst`
moves by a turn of the schedule and the Host keeps its program and variables over a reset (log 16, DEDUCED), and "any value" is
the read's free value (log 4, DESIGN CHOICE). -/
def Obligations.RstResetsTheBlock : Prop :=
  ∀ (s : State) (turns : List Turn),
    (∀ level, s.sched = .rst level :: turns → (level = true ∨ s.rst = true) →
      step s = .next { s with rst := level, block := Block.reset s.block.bufBytes, sched := turns }) ∧
    (s.rst = true → ∀ w off d rest, s.HostNext (.store w off d) rest turns →
      hostFaultOf s.block.bufBytes w off = none →
      step s = .next { s with host := { s.host with program := rest }, sched := turns }) ∧
    (s.rst = true → ∀ r w off rest, s.HostNext (.load r w off) rest turns →
      hostFaultOf s.block.bufBytes w off = none →
      ∃ v : Word, (∀ i, i < w.bytes → v.extractLsb' (8 * i) 8 = (Config.freeWord s.host.draws).extractLsb' (8 * i) 8) ∧
        step s = .next { s with
          host := { program := rest, vars := Sparse.write s.host.vars r v, draws := s.host.draws + 1 }
          sched := turns })

/-- The invariant holds at reset: for this implementation's capacity and for every legal one. -/
def Obligations.InvariantHoldsAtReset : Prop :=
  State.reset.Inv ∧ ∀ n, 24 ≤ n → n ≤ 65535 → (State.resetWith n).Inv

/-- Every step keeps the invariant: canonical buffer inside its bounds, legal capacity, the latch in agreement with the live
registers and DONE and ERRCODE 0 while BUSY = 1, the block at reset while `rst` is asserted. -/
def Obligations.EveryStepKeepsTheInvariant : Prop :=
  ∀ s t : State, s.Inv → step s = .next t → t.Inv

/-- R10, R116: with BUSY = 0 the block changes no state until the Host accesses it or `rst` is asserted: an Engine turn, a Host
turn with no operation left, a turn that leaves `rst` released, a Host that waits for `irq`, and a step with nothing to do all
leave it as it is. The model's own: such a turn is used up and changes nothing else (log 9, DESIGN CHOICE), the wait for `irq` is
a Host operation that is no bus access (log 21, DESIGN CHOICE), and a step with nothing to do answers the same state (log 14,
DEDUCED). -/
def Obligations.IdleBlockChangesNothing : Prop :=
  ∀ s : State, s.block.busy = false →
    (∀ turns, s.sched = .engine :: turns → step s = .next { s with sched := turns }) ∧
    (∀ turns, s.sched = .host :: turns → s.host.program = [] → step s = .next { s with sched := turns }) ∧
    (∀ turns, s.sched = .rst false :: turns → s.rst = false → step s = .next { s with sched := turns }) ∧
    (∀ rest turns, s.HostNext .waitIrq rest turns → ∃ t, step s = .next t ∧ t.block = s.block) ∧
    (s.sched = [] → s.host.program = [] → step s = .next s)

/-- R131, where the schedule ends by the model's choice (log 9, DESIGN CHOICE: a pending command then moves first, the model's form
of weak fairness): an accepted command completes after finitely many steps, unless `rst` intervenes: from a state whose pending command has
its packet (or fails before it reads one) and whose Host makes only legal accesses, within one step more than the schedule
is long the machine answers a state with BUSY = 0 and DONE = 1. -/
def Obligations.AcceptedCommandCompletes : Prop :=
  ∀ (s : State) (p : Latch), s.block.latch = some p → s.rst = false →
    (∀ turn ∈ s.sched, turn ≠ .rst true) →
    (∀ op ∈ s.host.program, op.legal s.block.bufBytes = true) →
    (24 ≤ p.n.toNat → p.n.toNat ≤ s.block.bufBytes → s.block.PacketReady p.n.toNat) →
    ∃ k t, k ≤ s.sched.length + 1 ∧ Host.Core.run Sys2Proof.core k s = .next t ∧
      t.block.busy = false ∧ t.block.status.done = true

/-- R114: a step of one block of a system changes no other block, and the number and places of the blocks stay. A system as a list
of machines is the model's form (log 17, DESIGN CHOICE). -/
def Obligations.BlocksOfASystemShareNothing : Prop :=
  ∀ (sys sys' : System) (j : Nat), sys.stepAt j = .next sys' →
    (∀ k, k ≠ j → sys'[k]? = sys[k]?) ∧ sys'.length = sys.length ∧
    sys'.map BlockUnit.base = sys.map BlockUnit.base ∧ sys'.map BlockUnit.irqLine = sys.map BlockUnit.irqLine ∧
    (∀ u, sys[j]? = some u → ∃ t, step u.machine = .next t ∧ sys'[j]? = some { u with machine := t })

/-! ### The checksum's words, and the Host's other turns -/

/-- R70, R71: S is the sum of the packet's bytes, each byte at an even offset counted 256 times and each at an odd offset once,
bytes 12, 13 and 16 to 23 as 0; an odd packet's last byte is the high byte of a word whose low byte is 0; Fold adds the bits
above bit 15 back in while there are any; Checksum(N) is the 16-bit complement of Fold(S). -/
def Obligations.ChecksumSumsBigEndianWords : Prop :=
  (∀ sum : Nat, fold sum = if sum ≤ 0xFFFF then sum else fold (sum % 0x10000 + sum / 0x10000)) ∧
  ∀ (m : Memory) (n : Nat),
    packetSum m n = ∑ k ∈ Finset.range n,
      (if k = 12 ∨ k = 13 ∨ (16 ≤ k ∧ k ≤ 23) then 0 else (m.byte k).toNat * (if k % 2 = 0 then 256 else 1)) ∧
    (checksum m n).toNat = 0xFFFF - fold (packetSum m n) ∧
    (n % 2 = 1 → ¬(n - 1 = 12 ∨ n - 1 = 13 ∨ (16 ≤ n - 1 ∧ n - 1 ≤ 23)) →
      summedWord m n (wordCount n - 1) = m.byte (n - 1) ++ 0#8)

/-- Where no turn is scheduled and BUSY = 0, the Host's next operation does what it does at a scheduled turn (log 9, DESIGN CHOICE):
what the statements about a Host turn say holds there too. -/
def Obligations.HostMovesWhereNothingIsScheduled : Prop :=
  ∀ s : State, s.sched = [] → s.block.busy = false →
    step s = step { s with sched := [.host] } ∧
    (∀ op rest, s.host.program = op :: rest → { s with sched := [.host] }.HostNext op rest [])

/-- R43, R104: a Host that waits for `irq` goes on exactly where CTRL.IE = 1 and DONE = 1, and nothing of the block changes; in a
state that the invariant admits it stays while BUSY = 1 and while `rst` is asserted, and after every completion with
CTRL.IE = 1 it goes on. One look at the level a turn, without a draw, is the model's choice (log 21, DESIGN CHOICE). -/
def Obligations.IrqWaitHoldsUntilIrq : Prop :=
  ∀ (s : State) (rest : List HostOp) (turns : List Turn), s.HostNext .waitIrq rest turns →
    step s = .next { s with
      host := { s.host with
        program := if s.block.ctrl.ie = true ∧ s.block.status.done = true then rest else .waitIrq :: rest }
      sched := turns } ∧
    (s.Inv → s.block.busy = true ∨ s.rst = true → step s = .next { s with sched := turns }) ∧
    (∀ (i : Instr) (u : State), exec i u = .next s → u.block.ctrl.ie = true →
      step s = .next { s with host := { s.host with program := rest }, sched := turns })

/-- R59, R120: one turn of the `wait` loop while `rst` is asserted reads any value, the read's free value (log 4, DESIGN CHOICE), and
has no effect on the block; the Host stays at the loop exactly where bit 0 of that value is 1 (log 13, DESIGN CHOICE: one read a
turn). -/
def Obligations.WaitDuringRstReadsAnyValue : Prop :=
  ∀ (s : State) (t : Nat) (rest : List HostOp) (turns : List Turn),
    s.HostNext (.wait t) rest turns → s.rst = true →
    step s = .next { s with
      host :=
        { program := if (Config.freeWord s.host.draws).getLsbD 0 = true then .wait t :: rest else rest
          vars := Sparse.write s.host.vars t (Config.freeWord s.host.draws)
          draws := s.host.draws + 1 }
      sched := turns }
end

