-- ==== Sys2Proof/Laws/State.lean ====
section
/-!
SUPPORT. One lemma for each field of each named update of the state.
-/

namespace Sys2Proof.Machine

variable (b : Block) (s : State) (d : Word) (code : ErrCode)

/-! ### Acceptance -/

@[simp] theorem Block.accept_bufBytes : (b.accept d).bufBytes = b.bufBytes := rfl
@[simp] theorem Block.accept_ctrl : (b.accept d).ctrl = b.ctrl := rfl
@[simp] theorem Block.accept_done : (b.accept d).status.done = false := rfl
@[simp] theorem Block.accept_busyWr : (b.accept d).status.busyWr = b.status.busyWr := rfl
@[simp] theorem Block.accept_errCode : (b.accept d).status.errCode = .none := rfl
@[simp] theorem Block.accept_len : (b.accept d).len = b.len := rfl
@[simp] theorem Block.accept_result : (b.accept d).result = b.result := rfl
@[simp] theorem Block.accept_hdr : (b.accept d).hdr = b.hdr := rfl
@[simp] theorem Block.accept_buf : (b.accept d).buf = b.buf := rfl
@[simp] theorem Block.accept_latch :
    (b.accept d).latch = some { word := d, n := b.len, lenchk := b.ctrl.lenCheck } := rfl
@[simp] theorem Block.accept_busy : (b.accept d).busy = true := rfl

/-! ### Completion -/

@[simp] theorem Block.complete_bufBytes : (b.complete code).bufBytes = b.bufBytes := rfl
@[simp] theorem Block.complete_ctrl : (b.complete code).ctrl = b.ctrl := rfl
@[simp] theorem Block.complete_done : (b.complete code).status.done = true := rfl
@[simp] theorem Block.complete_busyWr : (b.complete code).status.busyWr = b.status.busyWr := rfl
@[simp] theorem Block.complete_errCode : (b.complete code).status.errCode = code := rfl
@[simp] theorem Block.complete_len : (b.complete code).len = b.len := rfl
@[simp] theorem Block.complete_result : (b.complete code).result = b.result := rfl
@[simp] theorem Block.complete_hdr : (b.complete code).hdr = b.hdr := rfl
@[simp] theorem Block.complete_buf : (b.complete code).buf = b.buf := rfl
@[simp] theorem Block.complete_latch : (b.complete code).latch = none := rfl
@[simp] theorem Block.complete_busy : (b.complete code).busy = false := rfl

/-! ### A dropped write -/

@[simp] theorem Block.dropWrite_bufBytes : b.dropWrite.bufBytes = b.bufBytes := rfl
@[simp] theorem Block.dropWrite_ctrl : b.dropWrite.ctrl = b.ctrl := rfl
@[simp] theorem Block.dropWrite_done : b.dropWrite.status.done = b.status.done := rfl
@[simp] theorem Block.dropWrite_busyWr : b.dropWrite.status.busyWr = true := rfl
@[simp] theorem Block.dropWrite_errCode : b.dropWrite.status.errCode = b.status.errCode := rfl
@[simp] theorem Block.dropWrite_len : b.dropWrite.len = b.len := rfl
@[simp] theorem Block.dropWrite_result : b.dropWrite.result = b.result := rfl
@[simp] theorem Block.dropWrite_hdr : b.dropWrite.hdr = b.hdr := rfl
@[simp] theorem Block.dropWrite_buf : b.dropWrite.buf = b.buf := rfl
@[simp] theorem Block.dropWrite_latch : b.dropWrite.latch = b.latch := rfl

/-! ### The header capture -/

@[simp] theorem Block.captureHeader_bufBytes : b.captureHeader.bufBytes = b.bufBytes := rfl
@[simp] theorem Block.captureHeader_ctrl : b.captureHeader.ctrl = b.ctrl := rfl
@[simp] theorem Block.captureHeader_status : b.captureHeader.status = b.status := rfl
@[simp] theorem Block.captureHeader_len : b.captureHeader.len = b.len := rfl
@[simp] theorem Block.captureHeader_result : b.captureHeader.result = b.result := rfl
@[simp] theorem Block.captureHeader_buf : b.captureHeader.buf = b.buf := rfl
@[simp] theorem Block.captureHeader_latch : b.captureHeader.latch = b.latch := rfl

/-! ### GEN's patches -/

variable (n : Half)

@[simp] theorem Block.generate_bufBytes : (b.generate n).bufBytes = b.bufBytes := rfl
@[simp] theorem Block.generate_ctrl : (b.generate n).ctrl = b.ctrl := rfl
@[simp] theorem Block.generate_status : (b.generate n).status = b.status := rfl
@[simp] theorem Block.generate_len : (b.generate n).len = b.len := rfl
@[simp] theorem Block.generate_hdr : (b.generate n).hdr = b.hdr := rfl
@[simp] theorem Block.generate_latch : (b.generate n).latch = b.latch := rfl

/-! ### STATUS cleared by a Host write -/

variable (st : Status)

@[simp] theorem Status.clearedBy_done : (st.clearedBy d).done = (st.done && !d.getLsbD 1) := rfl
@[simp] theorem Status.clearedBy_busyWr : (st.clearedBy d).busyWr = (st.busyWr && !d.getLsbD 2) := rfl
@[simp] theorem Status.clearedBy_errCode : (st.clearedBy d).errCode = st.errCode := rfl

/-! ### The Host after a read -/

variable (h : HostAgent) (r : Nat) (v : Word) (rest : List HostOp)

@[simp] theorem HostAgent.received_program : (h.received r v rest).program = rest := rfl
@[simp] theorem HostAgent.received_vars : (h.received r v rest).vars = Sparse.write h.vars r v := rfl
@[simp] theorem HostAgent.received_draws : (h.received r v rest).draws = h.draws + 1 := rfl

/-! ### Reset, `rst`, and a command placed in the latch -/

variable (capacity : Nat) (level : Bool)

@[simp] theorem Block.reset_bufBytes : (Block.reset capacity).bufBytes = capacity := rfl
@[simp] theorem Block.reset_latch : (Block.reset capacity).latch = none := rfl
@[simp] theorem Block.reset_buf : (Block.reset capacity).buf = [] := rfl
@[simp] theorem Block.reset_busy : (Block.reset capacity).busy = false := rfl
@[simp] theorem State.resetWith_block : (State.resetWith capacity).block = Block.reset capacity := rfl
@[simp] theorem State.resetWith_rst : (State.resetWith capacity).rst = false := rfl

@[simp] theorem State.driveRst_rst : (s.driveRst level).rst = level := by
  unfold State.driveRst; split <;> rfl
@[simp] theorem State.driveRst_host : (s.driveRst level).host = s.host := by
  unfold State.driveRst; split <;> rfl
@[simp] theorem State.driveRst_sched : (s.driveRst level).sched = s.sched := by
  unfold State.driveRst; split <;> rfl
theorem State.driveRst_block : (s.driveRst level).block =
    if level || s.rst then Block.reset s.block.bufBytes else s.block := by
  unfold State.driveRst; split <;> rfl

@[simp] theorem State.withCommand_block : (s.withCommand d).block = s.block.accept d := rfl
@[simp] theorem State.withCommand_rst : (s.withCommand d).rst = false := rfl
@[simp] theorem State.withCommand_host : (s.withCommand d).host = s.host := rfl
@[simp] theorem State.withCommand_sched : (s.withCommand d).sched = .engine :: s.sched := rfl

end Sys2Proof.Machine
end

