-- ==== Sys2Proof/Laws/Memory.lean ====
section
/-!
SUPPORT. The laws of sparse data and of the packet buffer: read after write, other places untouched, canonical form kept.
-/

namespace Sys2Proof.Machine

/-! ### Sparse data -/

section Sparse
variable {α : Type} (m : Sparse α) (k : Nat) (v : α)

theorem Sparse.read_write (j : Nat) :
    Sparse.read (Sparse.write m k v) j = if j = k then some v else Sparse.read m j := by
  have hne {a b : Nat} (h : ¬a = b) : ¬b = a := fun e => h e.symm
  by_cases hj : j = k
  · subst hj
    induction m with
    | nil => simp [Sparse.write, Sparse.read]
    | cons c rest ih =>
      by_cases hlt : j < c.1
      · simp [Sparse.write, Sparse.read, hlt]
      · by_cases heq : c.1 = j
        · simp [Sparse.write, Sparse.read, heq]
        · simp [Sparse.write, Sparse.read, hlt, heq, ih]
  · induction m with
    | nil => simp [Sparse.write, Sparse.read, hj, hne hj]
    | cons c rest ih =>
      by_cases hlt : k < c.1
      · simp [Sparse.write, Sparse.read, hlt, hj, hne hj]
      · by_cases heq : c.1 = k
        · simp [Sparse.write, Sparse.read, heq, hj, hne hj]
        · simp only [if_neg hj] at ih
          simp [Sparse.write, Sparse.read, hlt, heq, hj, ih]

@[simp] theorem Sparse.read_write_same : Sparse.read (Sparse.write m k v) k = some v := by
  simp [Sparse.read_write]

theorem Sparse.read_write_other {j : Nat} (h : j ≠ k) :
    Sparse.read (Sparse.write m k v) j = Sparse.read m j := by
  simp [Sparse.read_write, h]

theorem Sparse.mem_write {c : Nat × α} (h : c ∈ Sparse.write m k v) : c = (k, v) ∨ c ∈ m := by
  induction m with
  | nil => simpa [Sparse.write] using h
  | cons e rest ih =>
    obtain ⟨key, old⟩ := e
    simp only [Sparse.write] at h
    split at h
    · simpa using h
    · split at h
      · rcases List.mem_cons.1 h with h | h
        · exact .inl h
        · exact .inr (List.mem_cons_of_mem _ h)
      · rcases List.mem_cons.1 h with h | h
        · exact .inr (h ▸ List.mem_cons_self)
        · exact (ih h).imp_right (List.mem_cons_of_mem _)

theorem Sparse.write_wf (h : Sparse.wf m) : Sparse.wf (Sparse.write m k v) := by
  induction m with
  | nil => simp [Sparse.wf, Sparse.write]
  | cons e rest ih =>
    obtain ⟨key, old⟩ := e
    simp only [Sparse.wf, List.map_cons, List.pairwise_cons, List.mem_map] at h
    obtain ⟨hall, hrest⟩ := h
    simp only [Sparse.write]
    split
    · rename_i hlt
      simp only [Sparse.wf, List.map_cons, List.pairwise_cons, List.mem_cons, List.mem_map]
      refine ⟨?_, hall, hrest⟩
      rintro a (rfl | ⟨c, hc, rfl⟩)
      · exact hlt
      · exact lt_trans hlt (hall _ ⟨c, hc, rfl⟩)
    · split
      · rename_i heq
        simp only [Sparse.wf, List.map_cons, List.pairwise_cons, List.mem_map]
        exact ⟨heq ▸ hall, hrest⟩
      · rename_i hnlt hne
        simp only [Sparse.wf, List.map_cons, List.pairwise_cons, List.mem_map]
        refine ⟨?_, ih hrest⟩
        rintro a ⟨c, hc, rfl⟩
        rcases Sparse.mem_write rest k v hc with rfl | hc
        · exact lt_of_le_of_ne (not_lt.1 hnlt) hne
        · exact hall _ ⟨c, hc, rfl⟩

theorem Sparse.mem_of_read {m : Sparse α} {k : Nat} {v : α} (h : Sparse.read m k = some v) : (k, v) ∈ m := by
  induction m with
  | nil => simp [Sparse.read] at h
  | cons e rest ih =>
    obtain ⟨key, old⟩ := e
    simp only [Sparse.read] at h
    split at h
    · rename_i heq; simp_all
    · exact List.mem_cons_of_mem _ (ih h)

end Sparse

/-! ### The buffer -/

variable (m : Memory) (k : Nat)

@[simp] theorem Memory.read_nil (j : Nat) : Memory.read [] j = none := rfl

theorem Memory.read_write (v : Byte) (j : Nat) :
    (m.write k v).read j = if j = k then some v else m.read j :=
  Sparse.read_write m k v j

theorem Memory.write_wf {m : Memory} (v : Byte) (h : m.wf) : (m.write k v).wf := Sparse.write_wf m k v h

theorem Memory.byte_of_read {m : Memory} {k : Nat} {v : Byte} (h : m.read k = some v) : m.byte k = v := by
  simp [Memory.byte, h]

theorem Memory.read_of_written {m : Memory} {k : Nat} (h : (m.read k).isSome = true) : m.read k = some (m.byte k) := by
  obtain ⟨v, hv⟩ := Option.isSome_iff_exists.1 h
  rw [hv, Memory.byte_of_read hv]

theorem Memory.byte_congr {m m' : Memory} {k : Nat} (h : m'.read k = m.read k) : m'.byte k = m.byte k := by
  simp [Memory.byte, h]

theorem Memory.read_writeBytes (f : Nat → Byte) (count j : Nat) :
    (m.writeBytes k f count).read j = if k ≤ j ∧ j < k + count then some (f (j - k)) else m.read j := by
  induction count with
  | zero => simp [Memory.writeBytes]
  | succ c ih =>
    rw [Memory.writeBytes, Memory.read_write, ih]
    by_cases hj : j = k + c
    · subst hj; simp
    · have : (k ≤ j ∧ j < k + c) ↔ (k ≤ j ∧ j < k + (c + 1)) := by omega
      simp [hj, this]

theorem Memory.writeBytes_wf {m : Memory} (f : Nat → Byte) (count : Nat) (h : m.wf) :
    (m.writeBytes k f count).wf := by
  induction count with
  | zero => exact h
  | succ c ih => exact Memory.write_wf _ _ ih

/-- Every byte a write lists lies in the written range or was listed before. -/
theorem Memory.mem_writeBytes {m : Memory} {f : Nat → Byte} {count : Nat} {c : Nat × Byte}
    (h : c ∈ m.writeBytes k f count) : (k ≤ c.1 ∧ c.1 < k + count) ∨ c ∈ m := by
  induction count with
  | zero => exact .inr h
  | succ n ih =>
    rcases Sparse.mem_write _ _ _ h with rfl | h
    · exact .inl ⟨by simp, by simp⟩
    · exact (ih h).imp_left fun ⟨h1, h2⟩ => ⟨h1, by omega⟩

/-- `MemRead(k, 2)`: the byte at the lower offset is the more significant one. -/
theorem Memory.memRead_two : m.memRead k 2 = m.byte k ++ m.byte (k + 1) := by
  have hz (v : Byte) : (0#0 ++ v : BitVec (0 + 8)) = v := by
    apply BitVec.eq_of_toNat_eq
    rw [BitVec.toNat_append]
    simp
  rw [Memory.memRead, Memory.memRead, Memory.memRead]
  exact congrArg (· ++ m.byte (k + 1)) (hz _)

theorem Memory.lengthField_eq : m.lengthField = m.byte 2 ++ m.byte 3 := Memory.memRead_two m 2
theorem Memory.checksumField_eq : m.checksumField = m.byte 12 ++ m.byte 13 := Memory.memRead_two m 12
theorem Memory.authType_eq : m.authType = m.byte 14 ++ m.byte 15 := Memory.memRead_two m 14

@[simp] theorem packetByte_two_zero (v : Half) : packetByte 2 v 0 = v.extractLsb' 8 8 := rfl
@[simp] theorem packetByte_two_one (v : Half) : packetByte 2 v 1 = v.extractLsb' 0 8 := rfl

/-- The two bytes of a 16-bit value in packet order make it up again. -/
theorem halves_append (v : Half) : v.extractLsb' 8 8 ++ v.extractLsb' 0 8 = v := by
  ext i hi
  simp only [BitVec.getElem_append, BitVec.getElem_extractLsb']
  split
  · simp [BitVec.getLsbD_eq_getElem hi]
  · simp [BitVec.getLsbD_eq_getElem hi, show 8 + (i - 8) = i by omega]

theorem Memory.read_patchLength (n : Half) (j : Nat) : (m.patchLength n).read j =
    if j = 2 then some (n.extractLsb' 8 8) else if j = 3 then some (n.extractLsb' 0 8) else m.read j := by
  simp only [Memory.patchLength, Memory.memWrite, Memory.read_writeBytes]
  by_cases h2 : j = 2
  · subst h2; simp
  · by_cases h3 : j = 3
    · subst h3; simp
    · have : ¬(2 ≤ j ∧ j < 2 + 2) := by omega
      simp [h2, h3, this]

theorem Memory.read_patchChecksum (c : Half) (j : Nat) : (m.patchChecksum c).read j =
    if j = 12 then some (c.extractLsb' 8 8) else if j = 13 then some (c.extractLsb' 0 8) else m.read j := by
  simp only [Memory.patchChecksum, Memory.memWrite, Memory.read_writeBytes]
  by_cases h2 : j = 12
  · subst h2; simp
  · by_cases h3 : j = 13
    · subst h3; simp
    · have : ¬(12 ≤ j ∧ j < 12 + 2) := by omega
      simp [h2, h3, this]

theorem Memory.patchLength_wf {m : Memory} (n : Half) (h : m.wf) : (m.patchLength n).wf :=
  Memory.writeBytes_wf _ _ _ h
theorem Memory.patchChecksum_wf {m : Memory} (c : Half) (h : m.wf) : (m.patchChecksum c).wf :=
  Memory.writeBytes_wf _ _ _ h
theorem Memory.busWrite_wf {m : Memory} (w : Width) (d : Word) (h : m.wf) : (m.busWrite k w d).wf :=
  Memory.writeBytes_wf _ _ _ h

theorem Memory.read_busWrite (w : Width) (d : Word) (j : Nat) : (m.busWrite k w d).read j =
    if k ≤ j ∧ j < k + w.bytes then some (lane d (j - k)) else m.read j :=
  Memory.read_writeBytes m k (lane d) w.bytes j

/-- Reset's memory is in canonical form. -/
theorem reset_buffer_wf (capacity : Nat) : (State.resetWith capacity).block.buf.wf := List.Pairwise.nil

/-! ### Which bytes are written -/

theorem Memory.firstUnwritten_eq_none {m : Memory} {n : Nat} :
    m.firstUnwritten n = none ↔ ∀ j, j < n → (m.read j).isSome = true := by
  simp [Memory.firstUnwritten, List.find?_eq_none, Option.isSome_iff_ne_none]

theorem Memory.firstUnwritten_eq_some {m : Memory} {n j : Nat} (h : m.firstUnwritten n = some j) :
    j < n ∧ m.read j = none ∧ ∀ i, i < j → (m.read i).isSome = true := by
  simp only [Memory.firstUnwritten, List.find?_range_eq_some] at h
  obtain ⟨h1, h2, h3⟩ := h
  refine ⟨by simpa using h2, by simpa using h1, fun i hi => ?_⟩
  have := h3 i hi
  cases hm : m.read i <;> simp_all

end Sys2Proof.Machine
end

