-- ==== Sys2Proof/Laws/Commands.lean ====
section
/-!
SUPPORT. What a command can do, said once: the range checks, the common frame of the four rules, and the inversion of `exec`.
-/

namespace Sys2Proof.Machine

variable {s t : State} {p : Latch} {b b' : Block} {code : ErrCode} {rest : Block → CmdResult}

/-! ### The range checks of R75 -/

theorem withHeader_lenRange (h : b.bufBytes < p.n.toNat) : withHeader p b rest = .ends .lenRange b := by
  simp [withHeader, Latch.count, h]

theorem withHeader_truncated (h : p.n.toNat ≤ b.bufBytes) (h24 : p.n.toNat < 24) :
    withHeader p b rest = .ends .truncated b := by
  simp [withHeader, Latch.count, not_lt.2 h, h24]

theorem withHeader_ready (h : b.PacketReady p.n.toNat) : withHeader p b rest = rest b.captureHeader := by
  have hu := Memory.firstUnwritten_eq_none.2 h.written
  simp [withHeader, Latch.count, not_lt.2 h.fits, not_lt.2 h.atLeast, hu]

theorem withHeader_uninit {k : Nat} (hfits : p.n.toNat ≤ b.bufBytes) (h24 : 24 ≤ p.n.toNat)
    (hu : b.buf.firstUnwritten p.n.toNat = some k) : withHeader p b rest = .uninit k := by
  simp [withHeader, Latch.count, not_lt.2 hfits, not_lt.2 h24, hu]

/-- The four ways through the range checks, each with its guard. -/
theorem withHeader_cases (p : Latch) (b : Block) (rest : Block → CmdResult) :
    (b.bufBytes < p.n.toNat ∧ withHeader p b rest = .ends .lenRange b) ∨
    (p.n.toNat ≤ b.bufBytes ∧ p.n.toNat < 24 ∧ withHeader p b rest = .ends .truncated b) ∨
    (∃ k, p.n.toNat ≤ b.bufBytes ∧ 24 ≤ p.n.toNat ∧ b.buf.firstUnwritten p.n.toNat = some k ∧
      withHeader p b rest = .uninit k) ∨
    (b.PacketReady p.n.toNat ∧ withHeader p b rest = rest b.captureHeader) := by
  by_cases h1 : b.bufBytes < p.n.toNat
  · exact .inl ⟨h1, withHeader_lenRange h1⟩
  have hfits := not_lt.1 h1
  by_cases h2 : p.n.toNat < 24
  · exact .inr (.inl ⟨hfits, h2, withHeader_truncated hfits h2⟩)
  have h24 := not_lt.1 h2
  cases hu : b.buf.firstUnwritten p.n.toNat with
  | some k => exact .inr (.inr (.inl ⟨k, hfits, h24, rfl, withHeader_uninit hfits h24 hu⟩))
  | none =>
    have hr : b.PacketReady p.n.toNat := ⟨h24, hfits, Memory.firstUnwritten_eq_none.1 hu⟩
    exact .inr (.inr (.inr ⟨hr, withHeader_ready hr⟩))

theorem Block.captureHeader_hdr (b : Block) : b.captureHeader.hdr = b.buf.capturedHdr := by
  simp [Block.captureHeader, Memory.capturedHdr, Memory.lengthField_eq, Memory.checksumField_eq]

/-! ### The rules of the four commands -/

/-- The rule `exec` runs for a command. -/
def ruleOf : Instr → Latch → Block → CmdResult
  | .csum => csumRule
  | .gen => genRule
  | .val => valRule
  | .plen => plenRule

theorem exec_eq_runCommand (i : Instr) (s : State) : exec i s = s.runCommand (ruleOf i) := by
  cases i <;> rfl

/-- `runCommand` answers a next state exactly when a command is pending and its rule ends. -/
theorem runCommand_eq_next {rule : Latch → Block → CmdResult} : s.runCommand rule = .next t ↔
    ∃ p code b, s.block.latch = some p ∧ rule p s.block = .ends code b ∧
      t = { s with block := b.complete code } := by
  unfold State.runCommand
  cases hl : s.block.latch with
  | none => simp
  | some p =>
    cases hr : rule p s.block with
    | ends code b =>
      simp only [hr, Host.Outcome.next.injEq]
      constructor
      · rintro rfl; exact ⟨p, code, b, rfl, hr, rfl⟩
      · rintro ⟨p', code', b', hp, hr', rfl⟩
        cases hp; rw [hr] at hr'; cases hr'; rfl
    | uninit k =>
      simp only [hr, reduceCtorEq, false_iff]
      rintro ⟨p', code', b', hp, hr', -⟩
      cases hp; rw [hr] at hr'; cases hr'

theorem runCommand_ends {rule : Latch → Block → CmdResult} (hl : s.block.latch = some p)
    (hr : rule p s.block = .ends code b) : s.runCommand rule = .next { s with block := b.complete code } :=
  runCommand_eq_next.2 ⟨p, code, b, hl, hr, rfl⟩

theorem runCommand_uninit {rule : Latch → Block → CmdResult} {k : Nat} (hl : s.block.latch = some p)
    (hr : rule p s.block = .uninit k) : s.runCommand rule = .fault (.uninitRead k) := by
  simp [State.runCommand, hl, hr]

theorem runCommand_ne_refused {rule : Latch → Block → CmdResult} (r : Refusal) :
    s.runCommand rule ≠ .refused r := by
  unfold State.runCommand
  split
  · simp
  · split <;> simp

/-- What every command's rule leaves alone, and where it may write: the registers a command never writes, and the buffer
outside the length and checksum fields (spec/10_state.md R25). -/
structure Block.CommandFrame (b b' : Block) : Prop where
  bufBytes : b'.bufBytes = b.bufBytes
  ctrl : b'.ctrl = b.ctrl
  status : b'.status = b.status
  len : b'.len = b.len
  latch : b'.latch = b.latch
  bytes : ∀ k, patchable k = false → b'.buf.read k = b.buf.read k

theorem Block.CommandFrame.refl (b : Block) : b.CommandFrame b := ⟨rfl, rfl, rfl, rfl, rfl, fun _ _ => rfl⟩

theorem Block.CommandFrame.captureHeader (b : Block) : b.CommandFrame b.captureHeader :=
  ⟨rfl, rfl, rfl, rfl, rfl, fun _ _ => rfl⟩

theorem read_patchLength_of_not_patchable (m : Memory) (n : Half) {k : Nat} (hk : patchable k = false) :
    (m.patchLength n).read k = m.read k := by
  simp only [patchable, Bool.or_eq_false_iff, beq_eq_false_iff_ne] at hk
  obtain ⟨⟨⟨h2, h3⟩, -⟩, -⟩ := hk
  simp [Memory.read_patchLength, h2, h3]

theorem read_patchChecksum_of_not_patchable (m : Memory) (c : Half) {k : Nat} (hk : patchable k = false) :
    (m.patchChecksum c).read k = m.read k := by
  simp only [patchable, Bool.or_eq_false_iff, beq_eq_false_iff_ne] at hk
  obtain ⟨⟨-, h12⟩, h13⟩ := hk
  simp [Memory.read_patchChecksum, h12, h13]

/-- Every end of every command's rule, said once. -/
theorem ruleOf_ends {i : Instr} (h : ruleOf i p b = .ends code b') :
    (code = .lenRange ∧ b' = b ∧ b.bufBytes < p.n.toNat) ∨
    (code = .truncated ∧ b' = b ∧ p.n.toNat ≤ b.bufBytes ∧ p.n.toNat < 24) ∨
    (b.PacketReady p.n.toNat ∧
      ((i = .csum ∧ code = .none ∧
          b' = { b.captureHeader with result := checksum b.buf p.n.toNat }) ∨
       (i = .val ∧ code = valOutcome p b.captureHeader (checksum b.buf p.n.toNat) ∧
          b' = { b.captureHeader with result := checksum b.buf p.n.toNat }) ∨
       (i = .plen ∧ code = .none ∧ b' = { b.captureHeader with buf := b.buf.patchLength p.n }) ∨
       (i = .gen ∧ code = .authUnsupported ∧ b.buf.authType ≠ 0#16 ∧ b' = b.captureHeader) ∨
       (i = .gen ∧ code = .none ∧ b.buf.authType = 0#16 ∧ b' = b.captureHeader.generate p.n))) := by
  cases i with
  | csum =>
    rcases withHeader_cases p b _ with ⟨hg, he⟩ | ⟨hg, hg', he⟩ | ⟨k, -, -, -, he⟩ | ⟨hg, he⟩ <;>
      rw [ruleOf, csumRule, he] at h <;> cases h
    · exact .inl ⟨rfl, rfl, hg⟩
    · exact .inr (.inl ⟨rfl, rfl, hg, hg'⟩)
    · exact .inr (.inr ⟨hg, .inl ⟨rfl, rfl, rfl⟩⟩)
  | val =>
    rcases withHeader_cases p b _ with ⟨hg, he⟩ | ⟨hg, hg', he⟩ | ⟨k, -, -, -, he⟩ | ⟨hg, he⟩ <;>
      rw [ruleOf, valRule, he] at h <;> cases h
    · exact .inl ⟨rfl, rfl, hg⟩
    · exact .inr (.inl ⟨rfl, rfl, hg, hg'⟩)
    · exact .inr (.inr ⟨hg, .inr (.inl ⟨rfl, rfl, rfl⟩)⟩)
  | plen =>
    rcases withHeader_cases p b _ with ⟨hg, he⟩ | ⟨hg, hg', he⟩ | ⟨k, -, -, -, he⟩ | ⟨hg, he⟩ <;>
      rw [ruleOf, plenRule, he] at h <;> cases h
    · exact .inl ⟨rfl, rfl, hg⟩
    · exact .inr (.inl ⟨rfl, rfl, hg, hg'⟩)
    · exact .inr (.inr ⟨hg, .inr (.inr (.inl ⟨rfl, rfl, rfl⟩))⟩)
  | gen =>
    rcases withHeader_cases p b _ with ⟨hg, he⟩ | ⟨hg, hg', he⟩ | ⟨k, -, -, -, he⟩ | ⟨hg, he⟩ <;>
      rw [ruleOf, genRule, he] at h
    · cases h; exact .inl ⟨rfl, rfl, hg⟩
    · cases h; exact .inr (.inl ⟨rfl, rfl, hg, hg'⟩)
    · cases h
    · by_cases ha : b.captureHeader.buf.authType ≠ 0#16
      · rw [if_pos ha] at h; cases h
        exact .inr (.inr ⟨hg, .inr (.inr (.inr (.inl ⟨rfl, rfl, ha, rfl⟩)))⟩)
      · rw [if_neg ha] at h; cases h
        exact .inr (.inr ⟨hg, .inr (.inr (.inr (.inr ⟨rfl, rfl, not_not.1 ha, rfl⟩)))⟩)

/-! ### Each rule on a packet that is ready, and before one is read -/

theorem ruleOf_lenRange (i : Instr) (h : b.bufBytes < p.n.toNat) : ruleOf i p b = .ends .lenRange b := by
  cases i <;> simp only [ruleOf, csumRule, valRule, plenRule, genRule] <;> exact withHeader_lenRange h

theorem ruleOf_truncated (i : Instr) (h : p.n.toNat ≤ b.bufBytes) (h24 : p.n.toNat < 24) :
    ruleOf i p b = .ends .truncated b := by
  cases i <;> simp only [ruleOf, csumRule, valRule, plenRule, genRule] <;> exact withHeader_truncated h h24

theorem ruleOf_csum_ready (h : b.PacketReady p.n.toNat) :
    ruleOf .csum p b = .ends .none { b.captureHeader with result := checksum b.buf p.n.toNat } := by
  rw [ruleOf, csumRule, withHeader_ready h]; rfl

theorem ruleOf_val_ready (h : b.PacketReady p.n.toNat) :
    ruleOf .val p b = .ends (valOutcome p b.captureHeader (checksum b.buf p.n.toNat))
      { b.captureHeader with result := checksum b.buf p.n.toNat } := by
  rw [ruleOf, valRule, withHeader_ready h]; rfl

theorem ruleOf_plen_ready (h : b.PacketReady p.n.toNat) :
    ruleOf .plen p b = .ends .none { b.captureHeader with buf := b.buf.patchLength p.n } := by
  rw [ruleOf, plenRule, withHeader_ready h]; rfl

theorem ruleOf_gen_ready (h : b.PacketReady p.n.toNat) :
    ruleOf .gen p b = if b.buf.authType ≠ 0#16 then .ends .authUnsupported b.captureHeader
      else .ends .none (b.captureHeader.generate p.n) := by
  rw [ruleOf, genRule, withHeader_ready h]; rfl

theorem Block.captureHeader_eq (b : Block) : b.captureHeader = { b with hdr := b.buf.capturedHdr } := by
  rw [← Block.captureHeader_hdr]; rfl

theorem ruleOf_frame {i : Instr} (h : ruleOf i p b = .ends code b') : b.CommandFrame b' := by
  rcases ruleOf_ends h with ⟨-, rfl, -⟩ | ⟨-, rfl, -⟩ | ⟨-, ⟨-, -, rfl⟩ | ⟨-, -, rfl⟩ | ⟨-, -, rfl⟩ |
    ⟨-, -, -, rfl⟩ | ⟨-, -, -, rfl⟩⟩
  · exact .refl _
  · exact .refl _
  · exact ⟨rfl, rfl, rfl, rfl, rfl, fun _ _ => rfl⟩
  · exact ⟨rfl, rfl, rfl, rfl, rfl, fun _ _ => rfl⟩
  · exact ⟨rfl, rfl, rfl, rfl, rfl, fun _ hk => read_patchLength_of_not_patchable _ _ hk⟩
  · exact .captureHeader _
  · refine ⟨rfl, rfl, rfl, rfl, rfl, fun k hk => ?_⟩
    exact (read_patchChecksum_of_not_patchable _ _ hk).trans (read_patchLength_of_not_patchable _ _ hk)

/-- The inversion of `exec`: a next state is the completion of what the command's rule ended with. -/
theorem exec_next {i : Instr} (h : exec i s = .next t) :
    ∃ p code b, s.block.latch = some p ∧ ruleOf i p s.block = .ends code b ∧
      t = { s with block := b.complete code } :=
  runCommand_eq_next.1 ((exec_eq_runCommand i s).symm.trans h)

theorem exec_of_ends {i : Instr} (hl : s.block.latch = some p) (hr : ruleOf i p s.block = .ends code b) :
    exec i s = .next { s with block := b.complete code } :=
  (exec_eq_runCommand i s).trans (runCommand_ends hl hr)

theorem exec_ne_refused (i : Instr) (s : State) (r : Refusal) : exec i s ≠ .refused r := by
  rw [exec_eq_runCommand]; exact runCommand_ne_refused r

end Sys2Proof.Machine
end

