-- ==== Sys2Proof/Laws/Checksum.lean ====
section
/-!
SUPPORT. Small laws of the checksum routine: what its sum depends on, and what one pass of the fold does.
-/

namespace Sys2Proof.Machine

theorem foldPass_mod (s : Nat) : foldPass s % 0xFFFF = s % 0xFFFF := by
  unfold foldPass; omega

theorem foldPass_lt {s : Nat} (h : 0xFFFF < s) : foldPass s < s := by
  unfold foldPass; omega

theorem foldPass_pos {s : Nat} (h : 0 < s) : 0 < foldPass s := by
  unfold foldPass; omega

theorem foldLoop_of_le {fuel s : Nat} (h : s ≤ 0xFFFF) : foldLoop fuel s = s := by
  cases fuel <;> simp [foldLoop, h]

theorem summedByte_eq (m : Memory) (n k : Nat) :
    summedByte m n k = if k < n ∧ excluded k = false then m.byte k else 0#8 := by
  unfold summedByte
  by_cases h : n ≤ k
  · simp [h]
  · cases excluded k <;> simp [h]

theorem excluded_eq_false {k : Nat} : excluded k = false ↔ k ≠ 12 ∧ k ≠ 13 ∧ ¬(16 ≤ k ∧ k ≤ 23) := by
  simp [excluded]; omega

theorem summedWord_congr {m m' : Memory} {n i : Nat}
    (h : ∀ k, summedByte m' n k = summedByte m n k) : summedWord m' n i = summedWord m n i := by
  simp [summedWord, h]

theorem sumWords_congr {m m' : Memory} {n n' count : Nat}
    (h : ∀ i, i < count → summedWord m' n' i = summedWord m n i) : sumWords m' n' count = sumWords m n count := by
  induction count with
  | zero => rfl
  | succ c ih => rw [sumWords, sumWords, ih fun i hi => h i (by omega), h c (by omega)]

theorem checksum_congr {m m' : Memory} {n : Nat}
    (h : ∀ k, summedByte m' n k = summedByte m n k) : checksum m' n = checksum m n := by
  simp only [checksum, packetSum]
  rw [sumWords_congr fun i _ => summedWord_congr h]

theorem sumWords_le (m : Memory) (n count : Nat) : sumWords m n count ≤ count * 0xFFFF := by
  induction count with
  | zero => simp [sumWords]
  | succ c ih =>
    have := (summedWord m n c).isLt
    rw [sumWords]; omega

/-- A word is its two bytes, the first more significant. -/
theorem summedWord_toNat (m : Memory) (n i : Nat) : (summedWord m n i).toNat =
    (summedByte m n (2 * i)).toNat * 256 + (summedByte m n (2 * i + 1)).toNat := by
  rw [summedWord, BitVec.toNat_append, ← Nat.shiftLeft_add_eq_or_of_lt (BitVec.isLt _), Nat.shiftLeft_eq]

end Sys2Proof.Machine
end

