-- ==== Sys2Proof/Laws/Bus.lean ====
section
/-!
SUPPORT. What a Host access can do: the address map, the conditions of HostFault, and the inversions of the Host's turns.
-/

namespace Sys2Proof.Machine

variable {s t : State}

theorem Width.bytes_pos (w : Width) : 0 < w.bytes := by cases w <;> decide

theorem hostFaultOf_eq_none {bufBytes : Nat} {w : Width} {off : Offset} : hostFaultOf bufBytes w off = none ↔
    off.toNat % w.bytes = 0 ∧ ¬(0x18 ≤ off.toNat ∧ off.toNat < 0x10000) ∧ ¬(off.toNat < 0x18 ∧ w ≠ .w4) ∧
      ¬(0x10000 ≤ off.toNat ∧ bufBytes < off.toNat - 0x10000 + w.bytes) := by
  unfold hostFaultOf
  split_ifs <;> simp_all

@[simp] theorem targetOf_reg (r : Reg) : targetOf r.offset = .reg r := by cases r <;> decide

theorem targetOf_buf {off : Offset} (h : 0x10000 ≤ off.toNat) : targetOf off = .buf (off.toNat - 0x10000) := by
  simp [targetOf, h]

/-- The buffer window: offset 0x10000 + k reaches `buf[k]`. -/
theorem targetOf_window {k : Nat} {off : Offset} (h : off.toNat = 0x10000 + k) : targetOf off = .buf k := by
  rw [targetOf_buf (by omega), show off.toNat - 0x10000 = k by omega]

theorem hostFaultOf_window {bufBytes k : Nat} {w : Width} {off : Offset} (h : off.toNat = 0x10000 + k)
    (ha : off.toNat % w.bytes = 0) (hk : k + w.bytes ≤ bufBytes) : hostFaultOf bufBytes w off = none := by
  rw [hostFaultOf_eq_none]; omega

@[simp] theorem hostFaultOf_reg (bufBytes : Nat) (r : Reg) : hostFaultOf bufBytes .w4 r.offset = none := by
  rw [hostFaultOf_eq_none]
  cases r <;> simp [Reg.offset, Width.bytes]

/-- An access that does not fault reaches a register by the register's offset, or the buffer inside its bounds. -/
theorem target_cases {bufBytes : Nat} {w : Width} {off : Offset} (h : hostFaultOf bufBytes w off = none) :
    (∃ r, w = .w4 ∧ off = Reg.offset r ∧ targetOf off = .reg r) ∨
    (∃ k, 0x10000 ≤ off.toNat ∧ k = off.toNat - 0x10000 ∧ k + w.bytes ≤ bufBytes ∧ targetOf off = .buf k) := by
  obtain ⟨h1, h2, h3, h4⟩ := hostFaultOf_eq_none.1 h
  by_cases hb : 0x10000 ≤ off.toNat
  · exact .inr ⟨off.toNat - 0x10000, hb, rfl, by omega, targetOf_buf hb⟩
  · have hw : w = .w4 := by
      by_contra hw; exact h3 ⟨by omega, hw⟩
    subst hw
    simp only [Width.bytes] at h1
    have hoff : off.toNat = 0 ∨ off.toNat = 4 ∨ off.toNat = 8 ∨ off.toNat = 12 ∨ off.toNat = 16 ∨ off.toNat = 20 := by
      omega
    have key : ∃ r, off = Reg.offset r := by
      rcases hoff with h | h | h | h | h | h
      · exact ⟨.ctrl, BitVec.eq_of_toNat_eq h⟩
      · exact ⟨.cmd, BitVec.eq_of_toNat_eq h⟩
      · exact ⟨.status, BitVec.eq_of_toNat_eq h⟩
      · exact ⟨.len, BitVec.eq_of_toNat_eq h⟩
      · exact ⟨.result, BitVec.eq_of_toNat_eq h⟩
      · exact ⟨.hdr, BitVec.eq_of_toNat_eq h⟩
    obtain ⟨r, rfl⟩ := key
    exact .inl ⟨r, rfl, rfl, targetOf_reg r⟩

theorem append_toNat {m n : Nat} (x : BitVec m) (y : BitVec n) : (x ++ y).toNat = x.toNat * 2 ^ n + y.toNat := by
  rw [BitVec.toNat_append, ← Nat.shiftLeft_add_eq_or_of_lt y.isLt, Nat.shiftLeft_eq]

/-- A 32-bit value of four bytes, the last the least significant. -/
theorem append_bytes_toNat (a b c d : Byte) : (a ++ (b ++ (c ++ d)) : Word).toNat =
    a.toNat * 2 ^ 24 + (b.toNat * 2 ^ 16 + (c.toNat * 2 ^ 8 + d.toNat)) :=
  (append_toNat a _).trans (congrArg _ ((append_toNat b _).trans (congrArg _ (append_toNat c d))))

/-- Lane `i` of a read value is the byte it was made of; lanes beyond the width are 0. -/
theorem lane_ofLanes (w : Width) (f : Nat → Byte) {i : Nat} (hi : i < 4) : lane (ofLanes w f) i = laneOf w f i := by
  apply BitVec.eq_of_toNat_eq
  have h0 := (laneOf w f 0).isLt
  have h1 := (laneOf w f 1).isLt
  have h2 := (laneOf w f 2).isLt
  have h3 := (laneOf w f 3).isLt
  rw [lane, BitVec.extractLsb'_toNat, ofLanes, append_bytes_toNat, Nat.shiftRight_eq_div_pow]
  interval_cases i <;> simp only [Nat.reduceMul, Nat.reducePow] <;> omega

/-- A 4-byte value is made of its own lanes. -/
theorem ofLanes_lane (d : Word) : ofLanes .w4 (lane d) = d := by
  apply BitVec.eq_of_toNat_eq
  have := d.isLt
  simp only [ofLanes, append_bytes_toNat, laneOf, Width.bytes, lane, Nat.reduceLT, if_true, BitVec.extractLsb'_toNat,
    Nat.shiftRight_eq_div_pow, Nat.reduceMul, Nat.reducePow]
  omega

/-! ### The register words as numbers -/

theorem Block.ctrlWord_eq (b : Block) :
    b.ctrlWord = BitVec.ofNat 32 (2 * b.ctrl.lenCheck.toNat + b.ctrl.ie.toNat) := by
  unfold Block.ctrlWord
  cases b.ctrl.lenCheck <;> cases b.ctrl.ie <;> decide

theorem Block.statusWord_eq (b : Block) : b.statusWord = BitVec.ofNat 32 (16 * b.status.errCode.code.toNat +
    4 * b.status.busyWr.toNat + 2 * b.status.done.toNat + b.busy.toNat) := by
  unfold Block.statusWord
  cases b.status.errCode <;> cases b.status.busyWr <;> cases b.status.done <;> cases b.busy <;> decide

theorem Block.lenWord_eq (b : Block) : b.lenWord = BitVec.ofNat 32 b.len.toNat := by
  apply BitVec.eq_of_toNat_eq; simp [Block.lenWord]

theorem Block.resultWord_eq (b : Block) : b.resultWord = BitVec.ofNat 32 b.result.toNat := by
  apply BitVec.eq_of_toNat_eq; simp [Block.resultWord]

theorem Block.hdrWord_eq (b : Block) : b.hdrWord = BitVec.ofNat 32 (65536 * b.hdr.lenf.toNat + b.hdr.ckf.toNat) := by
  apply BitVec.eq_of_toNat_eq
  rw [Block.hdrWord, append_toNat, BitVec.toNat_ofNat]
  have := b.hdr.lenf.isLt
  have := b.hdr.ckf.isLt
  omega

theorem hostReadValue_reg (r : Reg) (h : s.rst = false) :
    s.hostReadValue .w4 r.offset = s.block.readReg s.freeWord r := by
  simp [State.hostReadValue, h, Block.busRead]

/-- A write to the bus changes the block in one of these ways. -/
theorem busWrite_cases (b : Block) (w : Width) (off : Offset) (d : Word) :
    (b.busy = true ∧ b.busWrite w off d = b.dropWrite) ∨
    (b.busy = false ∧ b.busWrite w off d = { b with ctrl := ctrlOfWord d }) ∨
    (b.busy = false ∧ b.busWrite w off d = b.accept d) ∨
    b.busWrite w off d = { b with status := b.status.clearedBy d } ∨
    (b.busy = false ∧ b.busWrite w off d = { b with len := lenOfWord d }) ∨
    b.busWrite w off d = b ∨
    (∃ k, b.busy = false ∧ targetOf off = .buf k ∧ b.busWrite w off d = { b with buf := b.buf.busWrite k w d }) := by
  unfold Block.busWrite
  cases ht : targetOf off with
  | reg r =>
    cases r <;> simp only [Block.writeReg] <;> cases hb : b.busy <;> simp
  | buf k =>
    simp only [Block.writeBuf]
    cases hb : b.busy
    · exact .inr (.inr (.inr (.inr (.inr (.inr ⟨k, rfl, rfl, by simp⟩)))))
    · exact .inl ⟨rfl, by simp⟩

theorem hostLoad_next {r : Nat} {w : Width} {off : Offset} {rest : List HostOp}
    (h : s.hostLoad r w off rest = .next t) :
    hostFaultOf s.block.bufBytes w off = none ∧
      t = { s with host := s.host.received r (s.hostReadValue w off) rest } := by
  unfold State.hostLoad at h
  cases hf : hostFaultOf s.block.bufBytes w off with
  | some c => simp [hf] at h
  | none => rw [hf] at h; cases h; exact ⟨rfl, rfl⟩

theorem hostLoad_of_legal {r : Nat} {w : Width} {off : Offset} {rest : List HostOp}
    (h : hostFaultOf s.block.bufBytes w off = none) :
    s.hostLoad r w off rest = .next { s with host := s.host.received r (s.hostReadValue w off) rest } := by
  simp [State.hostLoad, h]

theorem hostStore_next {w : Width} {off : Offset} {d : Word} {rest : List HostOp}
    (h : s.hostStore w off d rest = .next t) :
    hostFaultOf s.block.bufBytes w off = none ∧
      t = { s with block := if s.rst then s.block else s.block.busWrite w off d
                   host := { s.host with program := rest } } := by
  unfold State.hostStore at h
  cases hf : hostFaultOf s.block.bufBytes w off with
  | some c => simp [hf] at h
  | none => rw [hf] at h; cases h; exact ⟨rfl, rfl⟩

theorem hostStore_of_legal {w : Width} {off : Offset} {d : Word} {rest : List HostOp}
    (h : hostFaultOf s.block.bufBytes w off = none) :
    s.hostStore w off d rest =
      .next { s with block := if s.rst then s.block else s.block.busWrite w off d
                     host := { s.host with program := rest } } := by
  simp [State.hostStore, h]

/-- What a Host turn can do: nothing (no operation left), a look at `irq` (only the Host's program moves), a read (the block as
it was), or a write. -/
theorem hostTurn_next (h : s.hostTurn = .next t) :
    (s.host.program = [] ∧ t = s) ∨
    (∃ rest, s.host.program = .waitIrq :: rest ∧
      t = { s with host := { s.host with program := if s.block.irq then rest else s.host.program } }) ∨
    (∃ r v rest, t = { s with host := s.host.received r v rest }) ∨
    (∃ w off d rest, s.host.program = .store w off d :: rest ∧ hostFaultOf s.block.bufBytes w off = none ∧
      t = { s with block := if s.rst then s.block else s.block.busWrite w off d
                   host := { s.host with program := rest } }) := by
  unfold State.hostTurn at h
  split at h
  · rename_i hp; cases h; exact .inl ⟨hp, rfl⟩
  · rename_i w off d rest hp
    obtain ⟨hf, rfl⟩ := hostStore_next h
    exact .inr (.inr (.inr ⟨w, off, d, rest, hp, hf, rfl⟩))
  · rename_i r w off rest hp
    obtain ⟨-, rfl⟩ := hostLoad_next h
    exact .inr (.inr (.inl ⟨r, _, rest, rfl⟩))
  · rename_i tv rest hp
    obtain ⟨-, rfl⟩ := hostLoad_next h
    exact .inr (.inr (.inl ⟨tv, _, _, rfl⟩))
  · rename_i rest hp
    cases h; exact .inr (.inl ⟨rest, hp, rfl⟩)

theorem hostTurn_ne_refused (s : State) (r : Refusal) : s.hostTurn ≠ .refused r := by
  unfold State.hostTurn State.hostWait State.hostWaitIrq State.hostLoad State.hostStore
  split
  any_goals simp
  all_goals split <;> simp

end Sys2Proof.Machine
end

