-- ==== Sys2Proof/Laws/PerInstr.lean ====
section
/-!
SUPPORT. Facts of each command as syntax: its word has RSVD zero and is one of the legal words (spec/30_encoding.md R50, R51).
-/

namespace Sys2Proof.Laws.LegalWord

/-- The command's word has RSVD zero, and the well-formedness check takes it. -/
def Statement (i : Instr) : Prop := rsvdField (encode i) = 0#28 ∧ commandWordLegal (encode i) = true

theorem csum : Statement .csum := by unfold Statement; decide
theorem gen : Statement .gen := by unfold Statement; decide
theorem val : Statement .val := by unfold Statement; decide
theorem plen : Statement .plen := by unfold Statement; decide

end Sys2Proof.Laws.LegalWord
end

