-- ==== Sys2Proof/Laws/Step.lean ====
section
/-!
SUPPORT. What a step can do: the inversion of the Engine's turn and of the step.
-/

namespace Sys2Proof.Machine

variable {s t : State} {p : Latch}

theorem engineTurn_idle (h : s.block.latch = none) : s.engineTurn = .next s := by
  simp [State.engineTurn, h]

theorem engineTurn_legal {i : Instr} (hl : s.block.latch = some p) (hd : decode p.word = .ok i) :
    s.engineTurn = exec i s := by
  simp [State.engineTurn, hl, hd]

theorem engineTurn_illegal {e : DecodeError} (hl : s.block.latch = some p) (hd : decode p.word = .error e) :
    s.engineTurn = .next { s with block := s.block.complete .illegalCmd } := by
  simp [State.engineTurn, hl, hd, State.runCommand, illegalRule]

/-- The Engine's turn either is not enabled, or completes the pending command. -/
theorem engineTurn_next (h : s.engineTurn = .next t) :
    (s.block.latch = none ∧ t = s) ∨
    (∃ p i, s.block.latch = some p ∧ decode p.word = .ok i ∧ exec i s = .next t) ∨
    (∃ p e, s.block.latch = some p ∧ decode p.word = .error e ∧
      t = { s with block := s.block.complete .illegalCmd }) := by
  cases hl : s.block.latch with
  | none =>
    rw [engineTurn_idle hl] at h; cases h; exact .inl ⟨rfl, rfl⟩
  | some p =>
    cases hd : decode p.word with
    | ok i => exact .inr (.inl ⟨p, i, rfl, hd, (engineTurn_legal hl hd).symm.trans h⟩)
    | error e =>
      rw [engineTurn_illegal hl hd] at h; cases h
      exact .inr (.inr ⟨p, e, rfl, hd, rfl⟩)

theorem step_of_sched {turn : Turn} {turns : List Turn} (h : s.sched = turn :: turns) :
    step s = { s with sched := turns }.takeTurn turn := by
  simp [step, State.advance, h]

theorem step_of_no_sched_busy (h : s.sched = []) (hb : s.block.busy = true) : step s = s.engineTurn := by
  simp [step, State.advance, h, hb]

theorem step_of_no_sched_idle (h : s.sched = []) (hb : s.block.busy = false) : step s = s.hostTurn := by
  simp [step, State.advance, h, hb]

/-! ### The Host's turn, by operation -/

theorem step_of_hostNext {op : HostOp} {rest : List HostOp} {turns : List Turn} (h : s.HostNext op rest turns) :
    step s = { s with sched := turns }.hostTurn := by
  rw [step_of_sched h.turn]; rfl

theorem step_store {w : Width} {off : Offset} {d : Word} {rest : List HostOp} {turns : List Turn}
    (h : s.HostNext (.store w off d) rest turns) (hf : hostFaultOf s.block.bufBytes w off = none) :
    step s = .next { s with
      block := if s.rst then s.block else s.block.busWrite w off d
      host := { s.host with program := rest }
      sched := turns } := by
  rw [step_of_hostNext h, State.hostTurn]
  simp only [h.program]
  exact hostStore_of_legal (s := { s with sched := turns }) hf

theorem step_load {r : Nat} {w : Width} {off : Offset} {rest : List HostOp} {turns : List Turn}
    (h : s.HostNext (.load r w off) rest turns) (hf : hostFaultOf s.block.bufBytes w off = none) :
    step s = .next { s with
      host := s.host.received r (s.hostReadValue w off) rest
      sched := turns } := by
  rw [step_of_hostNext h, State.hostTurn]
  simp only [h.program]
  exact hostLoad_of_legal (s := { s with sched := turns }) hf

theorem step_waitIrq {rest : List HostOp} {turns : List Turn} (h : s.HostNext .waitIrq rest turns) :
    step s = .next { s with
      host := { s.host with program := if s.block.irq then rest else .waitIrq :: rest }
      sched := turns } := by
  rw [step_of_hostNext h, State.hostTurn]
  simp [h.program, State.hostWaitIrq]

/-- While a command is pending, and while `rst` is asserted, `irq` is 0. -/
theorem State.Inv.irq_eq_false (hi : s.Inv) (h : s.block.busy = true ∨ s.rst = true) : s.block.irq = false := by
  rcases h with h | h
  · obtain ⟨p, hp⟩ := Option.isSome_iff_exists.1 h
    simp [Block.irq, (hi.pending p hp).2.2.1]
  · rw [hi.inReset h]; rfl

/-- A run of k + 1 steps whose first step answers a next state is the run of k steps from there. -/
theorem run_succ_of_next (M : Host.Core) (k : Nat) (a b : M.State) (h : M.step a = .next b) :
    M.run (k + 1) a = M.run k b := by
  simp [Host.Core.run, h]

/-- What a step can do: one turn of the Host, of the Engine or of `rst`, from the state with the rest of the schedule. -/
theorem step_next (h : step s = .next t) : ∃ turns,
    { s with sched := turns }.hostTurn = .next t ∨ { s with sched := turns }.engineTurn = .next t ∨
      ∃ level, t = { s with sched := turns }.driveRst level := by
  cases hs : s.sched with
  | nil =>
    have hself : { s with sched := [] } = s := by rw [← hs]
    refine ⟨[], ?_⟩
    rw [hself]
    cases hb : s.block.busy with
    | true => exact .inr (.inl ((step_of_no_sched_busy hs hb).symm.trans h))
    | false => exact .inl ((step_of_no_sched_idle hs hb).symm.trans h)
  | cons turn turns =>
    rw [step_of_sched hs] at h
    refine ⟨turns, ?_⟩
    cases turn with
    | host => exact .inl h
    | engine => exact .inr (.inl h)
    | rst level => cases h; exact .inr (.inr ⟨level, rfl⟩)

end Sys2Proof.Machine
end

