-- ==== Sys2Proof/Tests/Slice0.lean ====
section
/-!
SUPPORT. Tests of the model against the spec's own vectors (spec/95_test_vectors.md), and for every statement with hypotheses
a named witness that meets them.
-/

namespace Sys2Proof.Tests

open Sys2Proof.Machine

/-! ### Helpers -/

/-- A buffer holding these bytes from offset 0 on. -/
def memOf (bytes : List Byte) : Memory := (List.range bytes.length).zip bytes

/-- 24 zero bytes (Z24). -/
def z24 : List Byte := List.replicate 24 0

/-- Z24 after a GEN with N = 24 (vector G3): length 00 18, checksum FF E7. -/
def z24Gen : List Byte := (((z24.set 3 0x18).set 12 0xFF).set 13 0xE7)

/-- The packet H44 (section 1.2). -/
def h44 : List Byte :=
  [0x02, 0x01, 0x00, 0x2C, 0xC0, 0xA8, 0x01, 0x01, 0, 0, 0, 0, 0xB7, 0xA1, 0, 0, 0, 0, 0, 0, 0, 0, 0, 0] ++
  [0xFF, 0xFF, 0xFF, 0x00, 0x00, 0x0A, 0x02, 0x01, 0, 0, 0, 0x28, 0xC0, 0xA8, 0x01, 0x01, 0xC0, 0xA8, 0x01, 0x01]

/-- A block of capacity `cap` with these bytes and this command pending. -/
def pending (cap : Nat) (bytes : List Byte) (word : Word) (n : Half) (lenchk : Bool) : State :=
  { State.resetWith cap with
    block := { Block.reset cap with
      buf := memOf bytes, len := n, ctrl := { ie := true, lenCheck := lenchk }, latch := some { word := word, n := n, lenchk := lenchk } } }

/-- `s` with one Host operation and the Host's turn. -/
def hostDoes (s : State) (op : HostOp) : State :=
  { s with host := { s.host with program := [op] }, sched := [.host] }

/-- An idle block with these bytes. -/
def idle (cap : Nat) (bytes : List Byte) : State :=
  { State.resetWith cap with block := { Block.reset cap with buf := memOf bytes } }

/-- The next state of an outcome. -/
def nextOf : Host.Outcome State Fault Refusal → Option State
  | .next t => some t
  | _ => none

/-- What the command `i` leaves of RESULT, HDR, ERRCODE. -/
def reports (i : Instr) (s : State) : Option (Half × Half × Half × ErrCode) :=
  (nextOf (exec i s)).map fun t => (t.block.result, t.block.hdr.lenf, t.block.hdr.ckf, t.block.status.errCode)

/-- The value a Host read puts into variable 1. -/
def readsInto (s : State) (w : Width) (off : Offset) : Option Word :=
  (nextOf (step (hostDoes s (.load 1 w off)))).bind fun t => Sparse.read t.host.vars 1

/-- Does the outcome answer a next state with this property? -/
def answers (o : Host.Outcome State Fault Refusal) (q : State → Bool) : Bool := (nextOf o).any q

theorem exists_next {o : Host.Outcome State Fault Refusal} {q : State → Bool} (h : answers o q = true) :
    ∃ t, o = .next t ∧ q t = true := by
  cases o with
  | next t => exact ⟨t, rfl, by simpa [answers, nextOf] using h⟩
  | fault r => simp [answers, nextOf] at h
  | refused r => simp [answers, nextOf] at h

theorem ready_of {b : Block} {n : Nat} (h24 : 24 ≤ n) (hfit : n ≤ b.bufBytes)
    (hw : b.buf.firstUnwritten n = none) : b.PacketReady n :=
  ⟨h24, hfit, Memory.firstUnwritten_eq_none.1 hw⟩

/-! ### Well-formedness: each check refuses an ill-formed term -/

theorem smoke_word_zero_refused : commandWordLegal 0x00000000#32 = false := by decide
theorem smoke_word_rsvd_refused : commandWordLegal 0x00000011#32 = false := by decide
theorem smoke_capacity_small_refused : capacityLegal 23 = false := by decide
theorem smoke_capacity_large_refused : capacityLegal 65536 = false := by decide
theorem smoke_capacity_edges_taken : capacityLegal 24 = true ∧ capacityLegal 65535 = true := by decide

/-! ### Decoding: words written out from spec/30_encoding.md R50 and R51 (RSVD 31:4, OPCODE 3:0) -/

theorem test_decode_csum : decode 0b0000000000000000000000000000_0001#32 = .ok .csum := by decide
theorem test_decode_gen : decode 0b0000000000000000000000000000_0010#32 = .ok .gen := by decide
theorem test_decode_val : decode 0b0000000000000000000000000000_0011#32 = .ok .val := by decide
theorem test_decode_plen : decode 0b0000000000000000000000000000_0100#32 = .ok .plen := by decide
theorem test_decode_rsvd : decode 0b0000000000000000000000000001_0001#32 = .error (.reservedBits 1) := by decide
theorem test_decode_opcode5 : decode 0b0000000000000000000000000000_0101#32 = .error (.reservedOpcode 5) := by decide
theorem test_table_word : decodeTableWord 32 2 = some .gen ∧ decodeTableWord 32 0x12 = none ∧
    decodeTableWord 40 0x100000001 = none := by decide

/-! ### The checksum routine (vectors K2 to K5) -/

theorem test_checksum_odd : checksum (memOf ([0x02, 0x01, 0x00, 0x18] ++ List.replicate 20 0 ++ [0xAB])) 25 = 0x52E6 := by
  decide
theorem test_checksum_two_passes :
    checksum (memOf ([0xFF, 0xFF, 0xFF, 0xFF, 0x00, 0x01] ++ List.replicate 18 0)) 24 = 0xFFFE := by decide
theorem test_checksum_zero_result :
    checksum (memOf ([0xFF, 0xE7, 0x00, 0x18] ++ List.replicate 20 0)) 24 = 0x0000 := by decide
theorem test_checksum_all_zero : checksum (memOf z24) 24 = 0xFFFF := by decide

/-! ### The commands -/

/-- Vector C3: the auth type is not checked. -/
theorem test_csum_auth_type : reports .csum (pending 64 (h44.set 15 1) 1 44 true) = some (0xB7A0, 0x002C, 0xB7A1, .none) := by
  decide

/-- Vector C5: BUF_BYTES = 44, LEN = 45. -/
theorem test_csum_len_range : reports .csum (pending 44 h44 1 45 true) = some (0, 0, 0, .lenRange) := by decide

/-- Vector L5: the checksum is checked before the length field. -/
theorem test_val_order : reports .val (pending 64 (h44.set 3 0x2D) 3 44 true) =
    some (0xB7A0, 0x002D, 0xB7A1, .checksumMismatch) := by decide

/-- Vectors L8 and L10: the length field, then the auth type. -/
theorem test_val_length_then_auth :
    reports .val (pending 64 (h44 ++ [0, 0, 0, 0]) 3 48 true) = some (0xB7A1, 0x002C, 0xB7A1, .lengthMismatch) ∧
    reports .val (pending 64 ((h44.set 13 0xA0).set 15 1) 3 44 true) =
      some (0xB7A0, 0x002C, 0xB7A0, .authUnsupported) := by decide

/-- Vector N1: bytes 2 and 3 become 00 2C, HDR holds the old length field. -/
theorem test_plen : reports .plen (pending 44 (h44.set 3 0) 4 44 true) = some (0, 0x0000, 0xB7A1, .none) ∧
    answers (exec .plen (pending 44 (h44.set 3 0) 4 44 true)) (fun t => t.block.buf == memOf h44) = true := by decide

/-- Vector G1: the Hello packet from its placeholders. -/
theorem test_gen_hello : answers (exec .gen (pending 44 (((h44.set 3 0).set 12 0x12).set 13 0x34) 2 44 true))
    (fun t => t.block.buf == memOf h44 && t.block.result == 0xB7A1#16 && t.block.hdr.ckf == 0x1234#16) = true := by
  decide

/-- Vector G4: odd N. -/
theorem test_gen_odd : reports .gen (pending 45 ((h44.set 3 0) ++ [0x5A]) 2 45 true) =
    some (0x5DA0, 0x0000, 0xB7A1, .none) := by decide

/-- spec/20_memory.md R41: an unwritten byte in the range stops the command. -/
theorem test_uninit : exec .plen (pending 44 z24 4 25 true) = .fault (.uninitRead 24) := by rfl

/-! ### Host accesses (vectors B1 to B17, I4, I5) -/

theorem test_read_lanes : readsInto (idle 44 h44) .w4 0x10000#17 = some 0x2C000102#32 ∧
    readsInto (idle 44 h44) .w2 0x10002#17 = some 0x2C00#32 ∧
    readsInto (idle 44 h44) .w1 0x1000C#17 = some 0xB7#32 ∧
    readsInto (idle 44 h44) .w4 0x10028#17 = some 0x0101A8C0#32 := by decide

/-- I2, I3: `irq` is 0 from acceptance on, and 1 after completion with CTRL.IE = 1; a Host that waits for it stays and goes on. -/
theorem test_wait_irq :
    answers (step (hostDoes (pending 24 z24 2 24 true) .waitIrq)) (fun t => t.host.program == [.waitIrq]) = true ∧
    answers (step (hostDoes { idle 24 z24 with block := (pending 24 z24 2 24 true).block.complete .none } .waitIrq))
      (fun t => t.host.program == [] && t.block.irq) = true := by decide

theorem test_host_faults : hostFaultOf 44 .w4 0x1002C#17 = some .beyondBuffer ∧
    hostFaultOf 44 .w2 0x1002B#17 = some .misaligned ∧ hostFaultOf 44 .w4 0x00002#17 = some .misaligned ∧
    hostFaultOf 44 .w1 0x00000#17 = some .registerWidth ∧ hostFaultOf 44 .w4 0x00018#17 = some .reservedOffset ∧
    hostFaultOf 44 .w1 0x1002B#17 = none ∧ hostFaultOf 44 .w1 0x0FFFF#17 = some .reservedOffset ∧
    hostFaultOf 44 .w4 0x00014#17 = none := by decide

/-- B15: a buffer write while BUSY = 1 is dropped and recorded. -/
theorem test_busy_write : answers (step (hostDoes (pending 44 h44 2 44 true) (.store .w4 0x10000#17 0xAABBCCDD#32)))
    (fun t => t.block.buf == memOf h44 && t.block.status.busyWr && t.block.busy) = true := by decide

/-- B17: a byte the Engine never patches reads as it is while BUSY = 1. -/
theorem test_busy_read : readsInto (pending 44 h44 2 44 true) .w1 0x10018#17 = some 0xFF#32 := by decide

/-- I5: STATUS = 0x46, `sw STATUS, 0xFFFFFFFF` leaves 0x40. -/
theorem test_status_w1c : answers (step (hostDoes
      { idle 44 [] with block := { Block.reset 44 with
          ctrl := { ie := true, lenCheck := true }
          status := { done := true, busyWr := true, errCode := .checksumMismatch } } }
      (.store .w4 0x00008#17 0xFFFFFFFF#32)))
    (fun t => t.block.statusWord == 0x40#32 && !t.block.irq) = true := by decide

/-- B13 and B14: CTRL and LEN keep only their fields. -/
theorem test_ctrl_len_write :
    answers (step (hostDoes (idle 44 []) (.store .w4 0x00000#17 0xFFFFFFFF#32))) (fun t => t.block.ctrlWord == 3#32) = true ∧
    answers (step (hostDoes (idle 44 []) (.store .w4 0x0000C#17 0x12345678#32)))
      (fun t => t.block.lenWord == 0x5678#32) = true := by decide

/-- I8: reset while GEN is in flight. -/
theorem test_rst_abandons : answers (step { pending 44 h44 2 44 true with sched := [.rst true] })
    (fun t => t.rst && t.block == Block.reset 44) = true := by decide

/-- The first step from reset with a command placed runs it: TRUNCATED, since LEN.N = 0 (R122). -/
theorem test_first_after_reset : answers (step (State.reset.withFetchWord 32 3))
    (fun t => t.block.status.errCode == .truncated && t.block.status.done) = true := by decide

/-! ### Witnesses: concrete states that meet the hypotheses of each statement -/

theorem witness_IllegalWordOnlyReportsIllegalCmd :
    (pending 24 z24 0x11 24 true).block.latch = some { word := 0x11, n := 24, lenchk := true } ∧
    (0x11#32 ≠ 1#32 ∧ 0x11#32 ≠ 2#32 ∧ 0x11#32 ≠ 3#32 ∧ 0x11#32 ≠ 4#32) ∧
    { pending 24 z24 0x11 24 true with sched := [.engine] }.sched = [.engine] ∧
    (pending 24 z24 0x11 24 true).sched = [] := by decide

theorem witness_StepRunsTheDecodedCommand :
    (pending 24 z24 4 24 true).block.latch = some { word := 4, n := 24, lenchk := true } ∧
    decode 4#32 = .ok .plen ∧ { pending 24 z24 4 24 true with sched := [.engine] }.sched = [.engine] ∧
    (pending 24 z24 4 24 true).sched = [] := by decide

/-- DecodeAndEncodeAgree: words of its clauses. -/
theorem witness_DecodeAndEncodeAgree : decode 3#32 = .ok .val ∧
    (pending 24 z24 3 24 true).block.latch = some { word := 3, n := 24, lenchk := true } := by decide

theorem hostDoes_next (s : State) (op : HostOp) : (hostDoes s op).HostNext op [] [] := ⟨rfl, rfl⟩

/-- CmdWriteWhenIdleAccepts, CtrlAndLenWritesWhenIdle, RegistersReadAsTheirFields, StatusWriteClearsOnlyDoneAndBusyWr,
ResultAndHdrIgnoreWrites, WaitLoopsWhileBusy: an idle block, `rst` released; every operation can be the Host's next. -/
theorem witness_idle_host (op : HostOp) : (hostDoes (idle 24 z24) op).HostNext op [] [] ∧
    (hostDoes (idle 24 z24) op).rst = false ∧ (hostDoes (idle 24 z24) op).block.busy = false :=
  ⟨hostDoes_next _ _, rfl, rfl⟩

/-- WritesWhileBusyAreDropped, WaitLoopsWhileBusy, PendingCommandIsIsolatedFromTheHost: the same of a busy block; accesses at each
of the four targets do not fault. -/
theorem witness_busy_host (op : HostOp) : (hostDoes (pending 24 z24 2 24 true) op).HostNext op [] [] ∧
    (hostDoes (pending 24 z24 2 24 true) op).rst = false ∧
    (hostDoes (pending 24 z24 2 24 true) op).block.busy = true ∧
    hostFaultOf 24 .w4 0x00000#17 = none ∧ hostFaultOf 24 .w4 0x00004#17 = none ∧
    hostFaultOf 24 .w4 0x0000C#17 = none ∧ hostFaultOf 24 .w1 0x10017#17 = none :=
  ⟨hostDoes_next _ _, rfl, rfl, by decide, by decide, by decide, by decide⟩

/-- PendingCommandIsIsolatedFromTheHost: the step answers a next state. -/
theorem witness_PendingCommandIsIsolatedFromTheHost :
    ∃ t, step (hostDoes (pending 24 z24 2 24 true) (.store .w4 0x0000C#17 5#32)) = .next t ∧ true = true :=
  exists_next (q := fun _ => true) (by decide)

/-- BufferWriteGoesByLanes and BufferReadGoesByLanes: the last word and the last byte of the buffer. -/
theorem witness_buffer_access : (0x10014#17).toNat = 0x10000 + 20 ∧ (0x10014#17).toNat % Width.w4.bytes = 0 ∧
    20 + Width.w4.bytes ≤ (idle 24 z24).block.bufBytes ∧ (0x10017#17).toNat = 0x10000 + 23 ∧
    23 + Width.w1.bytes ≤ (idle 24 z24).block.bufBytes := by decide

/-- BufferReadGoesByLanes: a byte that is unwritten, and reads of bytes 2, 3 and 12, 13 while BUSY = 1. -/
theorem witness_BufferReadGoesByLanes :
    (pending 26 z24 2 24 true).block.buf.read 24 = none ∧ (0x10018#17).toNat = 0x10000 + 24 ∧
    (0x10018#17).toNat % Width.w2.bytes = 0 ∧ 24 + Width.w2.bytes ≤ (pending 26 z24 2 24 true).block.bufBytes ∧
    (pending 26 z24 2 24 true).block.busy = true ∧ (pending 26 z24 2 24 true).rst = false ∧
    (0x10002#17).toNat = 0x10000 + 2 ∧ (0x10002#17).toNat % Width.w2.bytes = 0 ∧
    (0x1000C#17).toNat = 0x10000 + 12 ∧ (0x1000C#17).toNat % Width.w2.bytes = 0 := by decide

/-- ReadsHaveNoSideEffects. -/
theorem witness_ReadsHaveNoSideEffects :
    (hostDoes (idle 24 z24) (.load 1 .w4 0x00014#17)).HostNext (.load 1 .w4 0x00014#17) [] [] ∧
    hostFaultOf (idle 24 z24).block.bufBytes .w4 0x00014#17 = none := ⟨hostDoes_next _ _, by decide⟩

/-- RegistersReadAsTheirFields: one value for each of the six offsets at reset. -/
theorem witness_RegistersReadAsTheirFields :
    2 * (idle 24 z24).block.ctrl.lenCheck.toNat + (idle 24 z24).block.ctrl.ie.toNat = 2 ∧
    16 * (idle 24 z24).block.status.errCode.code.toNat + 4 * (idle 24 z24).block.status.busyWr.toNat +
      2 * (idle 24 z24).block.status.done.toNat = 0 ∧
    (idle 24 z24).block.len.toNat = 0 ∧ (idle 24 z24).block.result.toNat = 0 ∧
    65536 * (idle 24 z24).block.hdr.lenf.toNat + (idle 24 z24).block.hdr.ckf.toNat = 0 := by decide

/-- The state of a block of capacity 24 right after a command was accepted keeps the invariant. -/
theorem accepted_inv (op : HostOp) :
    (hostDoes { State.resetWith 24 with block := (Block.reset 24).accept 1 } op).Inv where
  capacity := (by decide : capacityLegal 24 = true)
  bufferCanonical := List.Pairwise.nil
  bufferInside := by intro c hc; cases hc
  varsCanonical := List.Pairwise.nil
  pending := by intro p hp; cases hp; exact ⟨rfl, rfl, rfl, rfl⟩
  inReset := by intro h; cases h

theorem witness_RegisterReadsWhileBusy (op : HostOp) :
    (hostDoes { State.resetWith 24 with block := (Block.reset 24).accept 1 } op).HostNext op [] [] ∧
    (hostDoes { State.resetWith 24 with block := (Block.reset 24).accept 1 } op).rst = false ∧
    (hostDoes { State.resetWith 24 with block := (Block.reset 24).accept 1 } op).block.busy = true ∧
    (hostDoes { State.resetWith 24 with block := (Block.reset 24).accept 1 } op).Inv :=
  ⟨hostDoes_next _ _, rfl, rfl, accepted_inv op⟩

/-- HostFaultExactlyWhenR33: its four conditions at their edges, and accesses that meet none. -/
theorem witness_HostFaultExactlyWhenR33 :
    (hostDoes (idle 24 z24) (.load 1 .w2 0x00001#17)).HostNext (.load 1 .w2 0x00001#17) [] [] ∧
    (hostDoes (idle 24 z24) (.store .w1 0x00017#17 0)).HostNext (.store .w1 0x00017#17 0) [] [] ∧
    hostFaultOf 24 .w2 0x00001#17 = some .misaligned ∧ hostFaultOf 24 .w1 0x00018#17 = some .reservedOffset ∧
    hostFaultOf 24 .w4 0x0FFFC#17 = some .reservedOffset ∧ hostFaultOf 24 .w1 0x00017#17 = some .registerWidth ∧
    hostFaultOf 24 .w1 0x10018#17 = some .beyondBuffer ∧ hostFaultOf 24 .w1 0x10017#17 = none ∧
    hostFaultOf 24 .w4 0x00014#17 = none :=
  ⟨hostDoes_next _ _, hostDoes_next _ _, by decide, by decide, by decide, by decide, by decide, by decide, by decide⟩

/-- The range clauses of the command statements: N = BUF_BYTES + 1 and N = 23; the lowest and highest N that are ready. -/
theorem witness_range_clauses :
    (pending 24 z24 1 25 true).block.bufBytes < (25#16).toNat ∧
    (23#16).toNat ≤ (pending 24 z24 1 23 true).block.bufBytes ∧ (23#16).toNat < 24 ∧
    (pending 24 z24 1 24 true).block.PacketReady 24 ∧ (pending 44 h44 1 44 true).block.PacketReady 44 :=
  ⟨by decide, by decide, by decide, ready_of (by decide) (by decide) (by decide),
    ready_of (by decide) (by decide) (by decide)⟩

/-- GenPatchesLengthThenChecksum: an auth type other than 0 and auth type 0. -/
theorem witness_gen_auth_types :
    (pending 24 (z24.set 15 1) 2 24 true).block.PacketReady 24 ∧
    (memOf (z24.set 15 1)).byte 14 ++ (memOf (z24.set 15 1)).byte 15 ≠ 0#16 ∧
    (pending 24 z24 2 24 true).block.PacketReady 24 ∧ (memOf z24).byte 14 ++ (memOf z24).byte 15 = 0#16 :=
  ⟨ready_of (by decide) (by decide) (by decide), by decide, ready_of (by decide) (by decide) (by decide), by decide⟩

theorem witness_UnwrittenByteInRangeStopsTheCommand :
    (pending 25 z24 1 25 true).block.latch = some { word := 1, n := 25, lenchk := true } ∧
    24 ≤ (25#16).toNat ∧ (25#16).toNat ≤ (pending 25 z24 1 25 true).block.bufBytes ∧ 24 < (25#16).toNat ∧
    (memOf z24).read 24 = none ∧ (memOf z24).firstUnwritten 24 = none := by decide

/-- EveryCompletionFrame, CommandsWriteOnlyTheirHeaderBytes, ErrorCodesHaveTheirCauses: each command answers a next state. -/
theorem witness_each_command_answers (i : Instr) :
    ∃ t, exec i (pending 24 z24 (encode i) 24 true) = .next t ∧ true = true :=
  exists_next (q := fun _ => true) (by cases i <;> decide)

/-- FailedCommandLeavesThePacket: an illegal word, a truncated packet, and a GEN with an auth type other than 0. -/
theorem witness_FailedCommandLeavesThePacket :
    (∃ t, (pending 24 z24 0 24 true).engineTurn = .next t ∧ (t.block.status.errCode == .illegalCmd) = true) ∧
    (∃ t, (pending 24 z24 1 23 true).engineTurn = .next t ∧ (t.block.status.errCode == .truncated) = true) ∧
    (∃ t, (pending 24 (z24.set 15 1) 2 24 true).engineTurn = .next t ∧
      (t.block.status.errCode == .authUnsupported) = true) :=
  ⟨exists_next (q := fun t => t.block.status.errCode == .illegalCmd) (by decide),
    exists_next (q := fun t => t.block.status.errCode == .truncated) (by decide),
    exists_next (q := fun t => t.block.status.errCode == .authUnsupported) (by decide)⟩

/-- ErrorCodesHaveTheirCauses: a command for each code. -/
theorem witness_ErrorCodesHaveTheirCauses :
    (reports .csum (pending 24 z24 1 25 true)).map (·.2.2.2) = some .lenRange ∧
    (reports .plen (pending 24 z24 4 23 true)).map (·.2.2.2) = some .truncated ∧
    (reports .val (pending 24 z24 3 24 true)).map (·.2.2.2) = some .checksumMismatch ∧
    (reports .val (pending 24 ((z24.set 12 0xFF).set 13 0xFF) 3 24 true)).map (·.2.2.2) = some .lengthMismatch ∧
    (reports .gen (pending 24 (z24.set 15 1) 2 24 true)).map (·.2.2.2) = some .authUnsupported := by decide

/-- IrqIsIeAndDone: an idle block and data words with bit 1 set and bit 0 clear. -/
theorem witness_IrqIsIeAndDone : (Block.reset 24).busy = false ∧ (2#32).getLsbD 1 = true ∧ (2#32).getLsbD 0 = false := by
  decide

/-- SumFitsAndFoldsInTwoPasses: the largest N, and a sum whose fold needs two passes. -/
theorem witness_SumFitsAndFoldsInTwoPasses : (65535 : Nat) ≤ 65535 ∧
    packetSum (memOf ([0xFF, 0xFF, 0xFF, 0xFF, 0x00, 0x01] ++ List.replicate 18 0)) 24 = 0x1FFFF ∧
    0xFFFF < foldPass 0x1FFFF := by decide

/-- ChecksumIndependence: two buffers that differ in byte 12 and 23 only; a zero byte appended. -/
theorem witness_ChecksumIndependence :
    (∀ k < 24, k ≠ 12 → k ≠ 13 → ¬(16 ≤ k ∧ k ≤ 23) →
      (memOf ((z24.set 12 7).set 23 9)).read k = (memOf z24).read k) ∧
    (memOf (z24 ++ [0])).read 24 = some 0#8 ∧
    ((List.range (wordCount 24)).map (summedWord (memOf (z24.set 1 5)) 24)).Perm
      ((List.range (wordCount 24)).map (summedWord (memOf (z24.set 3 5)) 24)) := by
  refine ⟨by decide, by decide, ?_⟩
  exact List.perm_iff_count.2 fun a => by
    have h1 : (List.range (wordCount 24)).map (summedWord (memOf (z24.set 1 5)) 24) =
        5#16 :: 0#16 :: List.replicate 10 0#16 := by decide
    have h2 : (List.range (wordCount 24)).map (summedWord (memOf (z24.set 3 5)) 24) =
        0#16 :: 5#16 :: List.replicate 10 0#16 := by decide
    rw [h1, h2, List.count_cons, List.count_cons, List.count_cons, List.count_cons]; omega

/-- SingleBitFlipFailsOnChecksum: a VAL that passes; bit 0 of byte 3, and bit 7 of byte 13. -/
theorem witness_SingleBitFlipFailsOnChecksum :
    (∃ t, exec .val (pending 24 z24Gen 3 24 true) = .next t ∧ (t.block.status.errCode == .none) = true) ∧
    (memOf z24Gen).read 3 = some 0x18#8 ∧ (memOf (z24Gen.set 3 0x19)).read 3 = some (0x18#8 ^^^ BitVec.twoPow 8 0) ∧
    (∀ l < 24, l ≠ 3 → (memOf (z24Gen.set 3 0x19)).read l = (memOf z24Gen).read l) ∧
    (memOf z24Gen).read 13 = some 0xE7#8 ∧ (memOf (z24Gen.set 13 0x67)).read 13 = some (0xE7#8 ^^^ BitVec.twoPow 8 7) :=
  ⟨exists_next (q := fun t => t.block.status.errCode == .none) (by decide), by decide, by decide, by decide, by decide,
    by decide⟩

/-- AuthRegionDoesNotMatter: a buffer that differs in bytes 16 and 23. -/
theorem witness_AuthRegionDoesNotMatter :
    (∃ t, exec .val (pending 24 z24Gen 3 24 true) = .next t ∧ true = true) ∧
    (∀ k < 24, ¬(16 ≤ k ∧ k ≤ 23) → (memOf ((z24Gen.set 16 1).set 23 2)).read k = (memOf z24Gen).read k) ∧
    (∀ k < 24, 16 ≤ k → ((memOf ((z24Gen.set 16 1).set 23 2)).read k).isSome = true) :=
  ⟨exists_next (q := fun _ => true) (by decide), by decide, by decide⟩

/-- GenThenValPasses: a GEN without error, and the VAL accepted after the Host wrote bytes 16 and 25, the latter beyond N. -/
theorem witness_GenThenValPasses :
    ∃ t, exec .gen (pending 26 z24 2 24 true) = .next t ∧
      (t.block.status.errCode == .none && t.block.bufBytes == 26 &&
        (let s' : State := { t with block := { t.block.accept 3 with buf := memOf ((z24Gen.set 16 1) ++ [0, 9]) } }
         s'.block.latch == some { word := 3, n := 24, lenchk := true } && s'.block.bufBytes == 26 &&
          ((List.range 24).all fun k => (decide (16 ≤ k) || s'.block.buf.read k == t.block.buf.read k) &&
            (s'.block.buf.read k).isSome))) = true :=
  exists_next (q := fun t => t.block.status.errCode == .none && t.block.bufBytes == 26 &&
    (let s' : State := { t with block := { t.block.accept 3 with buf := memOf ((z24Gen.set 16 1) ++ [0, 9]) } }
     s'.block.latch == some { word := 3, n := 24, lenchk := true } && s'.block.bufBytes == 26 &&
      ((List.range 24).all fun k => (decide (16 ≤ k) || s'.block.buf.read k == t.block.buf.read k) &&
        (s'.block.buf.read k).isSome))) (by decide)

/-- What GenIsIdempotent asks of the state that the next command runs in, met by accepting that command's word as a run does. -/
def acceptedNext (word : Word) (t : State) : Bool :=
  (t.block.accept word).latch == some { word := word, n := 24, lenchk := true } && !(t.block.accept word).status.done &&
    (t.block.accept word).bufBytes == t.block.bufBytes && (t.block.accept word).buf == t.block.buf

/-- GenIsIdempotent: a GEN without error and the second GEN accepted after it; the PLEN instead and the CSUM accepted after it. -/
theorem witness_GenIsIdempotent :
    (∃ t, exec .gen (pending 24 z24 2 24 true) = .next t ∧
      (t.block.status.errCode == .none && t.block.buf == memOf z24Gen && acceptedNext 2 t) = true) ∧
    (∃ u, exec .plen (pending 24 z24 2 24 true) = .next u ∧ acceptedNext 1 u = true) :=
  ⟨exists_next (q := fun t => t.block.status.errCode == .none && t.block.buf == memOf z24Gen && acceptedNext 2 t)
    (by decide), exists_next (q := acceptedNext 1) (by decide)⟩

/-- CommandAtOnceAfterResetIsTruncated, FetchWordRunsNext: the words of the four commands. -/
theorem witness_command_words : (encode .csum).toNat = 1 ∧ (encode .gen).toNat = 2 ∧ (encode .val).toNat = 3 ∧
    (encode .plen).toNat = 4 := by decide

/-- RstResetsTheBlock, the load clause: reads of a register and of the buffer's last byte while `rst` is asserted. -/
theorem witness_RstResetsTheBlock_load :
    (hostDoes { State.resetWith 24 with rst := true } (.load 1 .w4 0x00010#17)).HostNext (.load 1 .w4 0x00010#17) [] [] ∧
    (hostDoes { State.resetWith 24 with rst := true } (.load 1 .w1 0x10017#17)).HostNext (.load 1 .w1 0x10017#17) [] [] ∧
    (hostDoes { State.resetWith 24 with rst := true } (.load 1 .w4 0x00010#17)).rst = true ∧
    hostFaultOf 24 .w4 0x00010#17 = none ∧ hostFaultOf 24 .w1 0x10017#17 = none :=
  ⟨hostDoes_next _ _, hostDoes_next _ _, rfl, by decide, by decide⟩

/-- RstResetsTheBlock: assertion, release, and a Host write while `rst` is asserted. -/
theorem witness_RstResetsTheBlock :
    { idle 24 z24 with sched := [.rst true] }.sched = [.rst true] ∧
    { idle 24 [] with rst := true, sched := [.rst false] }.rst = true ∧
    (hostDoes { State.resetWith 24 with rst := true } (.store .w4 0x00004#17 1)).rst = true ∧
    hostFaultOf 24 .w4 0x00004#17 = none := by decide

/-- EveryStepKeepsTheInvariant: a state that keeps the invariant and whose step answers a next state. -/
theorem witness_EveryStepKeepsTheInvariant :
    ∃ t, step (hostDoes { State.resetWith 24 with block := (Block.reset 24).accept 1 } (.wait 0)) = .next t ∧ true = true :=
  exists_next (q := fun _ => true) (by decide)

/-- IdleBlockChangesNothing: an idle block with an Engine turn, a Host turn, a released `rst`, a Host that waits for `irq`, and
with nothing to do. -/
theorem witness_IdleBlockChangesNothing : (idle 24 z24).block.busy = false ∧
    { idle 24 z24 with sched := [.engine] }.sched = [.engine] ∧
    { idle 24 z24 with sched := [.host] }.sched = [.host] ∧
    { idle 24 z24 with sched := [.rst false] }.sched = [.rst false] ∧ (idle 24 z24).rst = false ∧
    (hostDoes (idle 24 z24) .waitIrq).host.program = [.waitIrq] ∧ (idle 24 z24).sched = [] ∧
    (idle 24 z24).host.program = [] := by decide

/-- AcceptedCommandCompletes: a pending GEN, two Host turns before the Engine's, a polling and a writing Host. -/
theorem witness_AcceptedCommandCompletes :
    let s : State := { pending 24 z24 2 24 true with
      host := { program := [.wait 0, .store .w4 0x0000C#17 9], vars := [], draws := 0 }, sched := [.host, .rst false, .host] }
    s.rst = false ∧ (∀ turn ∈ s.sched, turn ≠ .rst true) ∧
      (∀ op ∈ s.host.program, op.legal s.block.bufBytes = true) ∧ s.block.PacketReady 24 :=
  ⟨by decide, by decide, by decide, ready_of (by decide) (by decide) (by decide)⟩

/-- ChecksumSumsBigEndianWords: a sum above 0xFFFF, and an odd N whose last byte is summed. -/
theorem witness_ChecksumSumsBigEndianWords : ¬(0x1FFFF : Nat) ≤ 0xFFFF ∧ 25 % 2 = 1 ∧
    ¬(25 - 1 = 12 ∨ 25 - 1 = 13 ∨ (16 ≤ 25 - 1 ∧ 25 - 1 ≤ 23)) := by decide

/-- HostMovesWhereNothingIsScheduled: an idle block, no turn scheduled, one Host operation left. -/
theorem witness_HostMovesWhereNothingIsScheduled :
    let s : State := { idle 24 z24 with host := { program := [.clrdone], vars := [], draws := 0 } }
    s.sched = [] ∧ s.block.busy = false ∧ s.host.program = [.clrdone] := by decide

/-- IrqWaitHoldsUntilIrq: a waiting Host with a command pending, with `rst` asserted, and after a completion with CTRL.IE = 1. -/
theorem witness_IrqWaitHoldsUntilIrq :
    ((hostDoes { State.resetWith 24 with block := (Block.reset 24).accept 1 } .waitIrq).Inv ∧
      (hostDoes { State.resetWith 24 with block := (Block.reset 24).accept 1 } .waitIrq).block.busy = true) ∧
    ((hostDoes { State.resetWith 24 with rst := true } .waitIrq).Inv ∧
      (hostDoes { State.resetWith 24 with rst := true } .waitIrq).rst = true) ∧
    (∃ s, exec .gen (hostDoes (pending 24 z24 2 24 true) .waitIrq) = .next s ∧
      (s.host.program == [.waitIrq] && s.sched == [.host]) = true) ∧
    (hostDoes (pending 24 z24 2 24 true) .waitIrq).block.ctrl.ie = true :=
  ⟨⟨accepted_inv _, rfl⟩,
    ⟨⟨(by decide : capacityLegal 24 = true), List.Pairwise.nil, fun _ hc => (List.not_mem_nil hc).elim, List.Pairwise.nil,
      fun _ hp => (by cases hp), fun _ => rfl⟩, rfl⟩,
    exists_next (q := fun s => s.host.program == [.waitIrq] && s.sched == [.host]) (by decide), rfl⟩

/-- WaitDuringRstReadsAnyValue. -/
theorem witness_WaitDuringRstReadsAnyValue :
    (hostDoes { State.resetWith 24 with rst := true } (.wait 0)).HostNext (.wait 0) [] [] ∧
    (hostDoes { State.resetWith 24 with rst := true } (.wait 0)).rst = true := ⟨hostDoes_next _ _, rfl⟩

/-- BlocksOfASystemShareNothing: a system of two blocks whose second takes a step. -/
theorem witness_BlocksOfASystemShareNothing :
    ∃ sys', System.stepAt [{ base := 0, irqLine := 1, machine := idle 24 [] },
      { base := 0x20000, irqLine := 2, machine := pending 24 z24 2 23 true }] 1 = .next sys' := ⟨_, rfl⟩

/-- Reset's buffer is in canonical form, and an address of the second block is found in it. -/
theorem test_system_locate : State.reset.block.buf.wf ∧
    (System.locate [{ base := 0, irqLine := 1, machine := idle 24 [] },
      { base := 0x20000, irqLine := 2, machine := idle 24 [] }] 0x20004).map (fun r => (r.1.irqLine, r.2)) =
      some (2, 0x00004#17) := by decide

end Sys2Proof.Tests
end

section
/-!
PROOFS. `MemRead` and `MemWrite` at every width (spec/00_scope.md R7, R8): what each byte reads after a `MemWrite`, and
which byte of the buffer each bit of a `MemRead` comes from.
-/

namespace Sys2Proof.Machine

theorem Memory.read_memWrite (m : Memory) (k n : Nat) (v : BitVec (8 * n)) (j : Nat) :
    (m.memWrite k n v).read j = if k ≤ j ∧ j < k + n then some (packetByte n v (j - k)) else m.read j :=
  Memory.read_writeBytes m k (packetByte n v) n j

theorem Memory.read_memWrite_inside (m : Memory) (k n : Nat) (v : BitVec (8 * n)) {i : Nat} (hi : i < n) :
    (m.memWrite k n v).read (k + i) = some (packetByte n v i) := by
  rw [Memory.read_memWrite, if_pos (by omega), Nat.add_sub_cancel_left]

theorem Memory.read_memWrite_outside (m : Memory) (k n : Nat) (v : BitVec (8 * n)) {j : Nat} (hj : j < k ∨ k + n ≤ j) :
    (m.memWrite k n v).read j = m.read j := by
  rw [Memory.read_memWrite, if_neg (by omega)]

/-- Big-endian, bit by bit: bit i of an n-byte read lies in the byte `i / 8` places before the last one. -/
theorem Memory.getLsbD_memRead (m : Memory) (k n : Nat) {i : Nat} (hi : i < 8 * n) :
    (m.memRead k n).getLsbD i = (m.byte (k + (n - 1 - i / 8))).getLsbD (i % 8) := by
  induction n generalizing i with
  | zero => omega
  | succ n ih =>
    rw [Memory.memRead, BitVec.getLsbD_append]
    split
    case isTrue hlow =>
      rw [Nat.div_eq_of_lt hlow, Nat.mod_eq_of_lt hlow]
      rfl
    case isFalse hhigh =>
      have hbyte : n - 1 - (i - 8) / 8 = n + 1 - 1 - i / 8 := by omega
      have hbit : (i - 8) % 8 = i % 8 := by omega
      rw [ih (by omega), hbyte, hbit]

theorem Memory.memRead_memWrite (m : Memory) (k n : Nat) (v : BitVec (8 * n)) : (m.memWrite k n v).memRead k n = v := by
  refine BitVec.eq_of_getLsbD_eq fun i hi => ?_
  have hbyte : n - 1 - i / 8 < n := by omega
  have hbit : 8 * (n - 1 - (n - 1 - i / 8)) + i % 8 = i := by omega
  rw [Memory.getLsbD_memRead _ _ _ hi, Memory.byte_of_read (Memory.read_memWrite_inside m k n v hbyte), packetByte,
    BitVec.getLsbD_extractLsb', hbit]
  simp [Nat.mod_lt]

/-- Settles O19: a written byte by `read_memWrite_inside`, the frame by `read_memWrite_outside`, the read-back bit by bit. -/
theorem packetFieldsAreBigEndian : Obligations.PacketFieldsAreBigEndian := fun m k n v =>
  ⟨Memory.memRead_memWrite m k n v, fun _ hi => Memory.read_memWrite_inside m k n v hi,
    fun _ hj => Memory.read_memWrite_outside m k n v hj⟩

end Sys2Proof.Machine
end

section
/-!
PROOFS. Host writes to a register (spec/10_state.md R13 to R22): a word store at a register's offset is that register's
`writeReg`, the bits the register words reserve read 0, and so STATUS, CTRL and LEN writes move their own fields only.
-/

namespace Sys2Proof.Machine

/-! ### The reserved bits -/

theorem Block.ctrlWord_reserved (b : Block) : b.ctrlWord.extractLsb' 2 30 = 0#30 := by
  rw [Block.ctrlWord, BitVec.extractLsb'_append_eq_of_le (by decide), BitVec.extractLsb'_zero]

/-- STATUS bit 3 lies above BUSYWR, DONE and BUSY and below ERRCODE. -/
theorem Block.statusWord_reserved_bit3 (b : Block) : b.statusWord.extractLsb' 3 1 = 0#1 := by
  rw [Block.statusWord, BitVec.extractLsb'_append_eq_of_add_le (by decide),
    BitVec.extractLsb'_append_eq_of_add_le (by decide), BitVec.extractLsb'_append_eq_of_le (by decide),
    BitVec.extractLsb'_zero]

theorem Block.statusWord_reserved_high (b : Block) : b.statusWord.extractLsb' 8 24 = 0#24 := by
  rw [Block.statusWord, BitVec.extractLsb'_append_eq_of_le (by decide), BitVec.extractLsb'_zero]

theorem Block.lenWord_reserved (b : Block) : b.lenWord.extractLsb' 16 16 = 0#16 := by
  have hlen := b.len.isLt
  apply BitVec.eq_of_toNat_eq
  rw [Block.lenWord_eq, BitVec.extractLsb'_toNat, BitVec.toNat_ofNat, Nat.shiftRight_eq_div_pow, BitVec.toNat_ofNat]
  omega

/-! ### Register writes, and the step that does one -/

theorem lenOfWord_eq (d : Word) : lenOfWord d = d.extractLsb' 0 16 := BitVec.setWidth_eq_extractLsb' (by decide)

/-- Write-1-to-clear, flag by flag. -/
theorem Status.clearedBy_eq (st : Status) (d : Word) : st.clearedBy d = { st with
    done := if d.getLsbD 1 then false else st.done
    busyWr := if d.getLsbD 2 then false else st.busyWr } := by
  have writeOneToClear (flag w : Bool) : (flag && !w) = if w then false else flag := by cases w <;> simp
  rw [Status.clearedBy, writeOneToClear, writeOneToClear]

theorem Block.writeReg_status (b : Block) (d : Word) :
    b.writeReg d .status = { b with status := b.status.clearedBy d } := rfl

theorem Block.writeReg_ctrl_idle {b : Block} (d : Word) (hb : b.busy = false) :
    b.writeReg d .ctrl = { b with ctrl := ctrlOfWord d } := by
  simp [Block.writeReg, hb]

theorem Block.writeReg_len_idle {b : Block} (d : Word) (hb : b.busy = false) :
    b.writeReg d .len = { b with len := lenOfWord d } := by
  simp [Block.writeReg, hb]

theorem Block.busWrite_reg (b : Block) (r : Reg) (w : Width) (d : Word) : b.busWrite w r.offset d = b.writeReg d r := by
  simp [Block.busWrite]

/-- A word store at a register's offset, with `rst` released, never faults: it is the register's write. -/
theorem step_storeReg {s : State} (r : Reg) {d : Word} {rest : List HostOp} {turns : List Turn}
    (h : s.HostNext (.store .w4 r.offset d) rest turns) (hrst : s.rst = false) :
    step s = .next { s with
      block := s.block.writeReg d r
      host := { s.host with program := rest }
      sched := turns } := by
  rw [step_store h (hostFaultOf_reg _ r), hrst, Block.busWrite_reg, if_neg Bool.false_ne_true]

/-- Settles O8: the store is STATUS's `writeReg` (`step_storeReg`), which clears flag by flag (`Status.clearedBy_eq`). -/
theorem statusWriteClearsOnlyDoneAndBusyWr : Obligations.StatusWriteClearsOnlyDoneAndBusyWr := by
  refine ⟨fun b => ⟨b.statusWord_reserved_bit3, b.statusWord_reserved_high⟩, fun s d rest turns hnext hrst => ?_⟩
  rw [step_storeReg .status hnext hrst, Block.writeReg_status, Status.clearedBy_eq]

/-- Settles O9: the two stores are `writeReg` of CTRL and of LEN on an idle block. -/
theorem ctrlAndLenWritesWhenIdle : Obligations.CtrlAndLenWritesWhenIdle := by
  refine ⟨fun b => ⟨b.ctrlWord_reserved, b.lenWord_reserved⟩,
    fun s d rest turns hrst hidle => ⟨fun hnext => ?ctrl, fun hnext => ?len⟩⟩
  case ctrl => rw [step_storeReg .ctrl hnext hrst, Block.writeReg_ctrl_idle d hidle, ctrlOfWord]
  case len => rw [step_storeReg .len hnext hrst, Block.writeReg_len_idle d hidle, lenOfWord_eq]

end Sys2Proof.Machine
end

section
/-!
PROOFS. HostFault (spec/20_memory.md R33, spec/60_exceptions.md R110): a Host access answers the fault that `hostFaultOf`
finds, and `hostFaultOf` finds one exactly under R33's four conditions.
-/

namespace Sys2Proof.Machine

variable {s : State} {w : Width} {off : Offset} {rest : List HostOp} {turns : List Turn} {cause : HostFaultCause}

theorem Width.bytes_eq_four : w.bytes = 4 ↔ w = .w4 := by cases w <;> decide

theorem exists_hostFaultOf_eq_some {bufBytes : Nat} : (∃ cause, hostFaultOf bufBytes w off = some cause) ↔
    (off.toNat % w.bytes ≠ 0 ∨
     (0x00018 ≤ off.toNat ∧ off.toNat ≤ 0x0FFFF) ∨
     (off.toNat ≤ 0x00017 ∧ w.bytes ≠ 4) ∨
     (0x10000 ≤ off.toNat ∧ bufBytes < off.toNat - 0x10000 + w.bytes)) := by
  rw [← Option.ne_none_iff_exists', ne_eq, hostFaultOf_eq_none, ne_eq w, ← Width.bytes_eq_four]
  omega

theorem step_load_eq_hostFault {r : Nat} (h : s.HostNext (.load r w off) rest turns) :
    step s = .fault (.hostFault cause) ↔ hostFaultOf s.block.bufBytes w off = some cause := by
  cases hf : hostFaultOf s.block.bufBytes w off with
  | none => simp [step_load h hf]
  | some found => simp [step_of_hostNext h, State.hostTurn, h.program, State.hostLoad, hf]

theorem step_store_eq_hostFault {d : Word} (h : s.HostNext (.store w off d) rest turns) :
    step s = .fault (.hostFault cause) ↔ hostFaultOf s.block.bufBytes w off = some cause := by
  cases hf : hostFaultOf s.block.bufBytes w off with
  | none => simp [step_store h hf]
  | some found => simp [step_of_hostNext h, State.hostTurn, h.program, State.hostStore, hf]

/-- Settles O16: a load and a store alike fault where `hostFaultOf` names a cause, and it names one under R33's conditions. -/
theorem hostFaultExactlyWhenR33 : Obligations.HostFaultExactlyWhenR33 := by
  intro s r w off d rest turns hnext _
  rw [← exists_hostFaultOf_eq_some]
  obtain hload | hstore := hnext
  · exact exists_congr fun _ => step_load_eq_hostFault hload
  · exact exists_congr fun _ => step_store_eq_hostFault hstore

end Sys2Proof.Machine
end

section
/-!
PROOFS. The command word (spec/30_encoding.md R50, R51, R54): a word is its two fields, it decodes to a command exactly when
it is that command's word, and so four words decode and the rest are rejected with the field that makes them illegal.
-/

namespace Sys2Proof

theorem rsvdField_append_opcodeField (d : Word) : rsvdField d ++ opcodeField d = d :=
  (BitVec.extractLsb'_append_extractLsb'_eq_extractLsb' rfl).trans BitVec.extractLsb'_eq_self

theorem eq_opcodeOf_of_decodeOpcode {opcode : BitVec 4} {i : Instr} (h : decodeOpcode opcode = .ok i) :
    opcode = opcodeOf i := by
  unfold decodeOpcode at h
  split at h
  case h_5 => cases h
  all_goals
    cases h
    exact BitVec.eq_of_toNat_eq ‹opcode.toNat = _›

theorem decode_eq_ok_iff_fields {d : Word} {i : Instr} :
    decode d = .ok i ↔ rsvdField d = 0#28 ∧ decodeOpcode (opcodeField d) = .ok i := by
  unfold decode
  split <;> simp_all

theorem decode_encode (i : Instr) : decode (encode i) = .ok i := by cases i <;> rfl

/-- RSVD and OPCODE make up the whole word, so the command decoded from them gives the word back. -/
theorem decode_eq_ok {d : Word} {i : Instr} : decode d = .ok i ↔ d = encode i := by
  refine ⟨fun h => ?_, fun h => h ▸ decode_encode i⟩
  obtain ⟨hrsvd, hopcode⟩ := decode_eq_ok_iff_fields.1 h
  rw [encode, ← eq_opcodeOf_of_decodeOpcode hopcode, ← hrsvd, rsvdField_append_opcodeField]

theorem exists_eq_encode {d : Word} : (∃ i, d = encode i) ↔ d = 1#32 ∨ d = 2#32 ∨ d = 3#32 ∨ d = 4#32 := by
  constructor
  case mp =>
    rintro ⟨_ | _ | _ | _, rfl⟩
    · exact .inl rfl
    · exact .inr (.inl rfl)
    · exact .inr (.inr (.inl rfl))
    · exact .inr (.inr (.inr rfl))
  case mpr =>
    rintro (rfl | rfl | rfl | rfl)
    · exact ⟨.csum, rfl⟩
    · exact ⟨.gen, rfl⟩
    · exact ⟨.val, rfl⟩
    · exact ⟨.plen, rfl⟩

/-- R54 before R51: a nonzero RSVD makes the word illegal, whatever OPCODE is. -/
theorem decode_of_rsvdField_ne_zero {d : Word} (h : rsvdField d ≠ 0#28) :
    decode d = .error (.reservedBits (rsvdField d)) := if_neg h

theorem decode_of_rsvdField_eq_zero {d : Word} (h : rsvdField d = 0#28) : decode d = decodeOpcode (opcodeField d) := if_pos h

/-- Settles O2: both directions are `decode_eq_ok`, the legal words are the four encodings, and the Engine's turn decodes
P.word (`Machine.engineTurn_legal`). -/
theorem decodeAndEncodeAgree : Obligations.DecodeAndEncodeAgree := by
  refine ⟨decode_encode, fun _ _ => decode_eq_ok.1, fun d => ?_, fun _ _ _ => Machine.engineTurn_legal⟩
  simp only [decode_eq_ok, exists_eq_encode]

/-- Settles O1: the legal words are encodings; of the samples of reserved words three have RSVD zero and a reserved OPCODE, two
have a nonzero RSVD. -/
theorem commandWordsDecodeAsTheTable : Obligations.CommandWordsDecodeAsTheTable :=
  ⟨decode_encode .csum, decode_encode .gen, decode_encode .val, decode_encode .plen,
    decode_of_rsvdField_eq_zero (by decide), decode_of_rsvdField_eq_zero (by decide),
    decode_of_rsvdField_eq_zero (by decide),
    decode_of_rsvdField_ne_zero (by decide), decode_of_rsvdField_ne_zero (by decide)⟩

end Sys2Proof
end

section
/-!
PROOFS. Acceptance of a command and the writes a pending command drops (spec/30_encoding.md R52, R53, spec/20_memory.md R37).
-/

namespace Sys2Proof.Machine

variable {b : Block} {w : Width} {off : Offset} {d : Word}

theorem Block.writeReg_cmd_idle (hb : b.busy = false) : b.writeReg d .cmd = b.accept d := by
  simp [Block.writeReg, hb]

theorem Block.writeReg_busy {r : Reg} (hr : r = .ctrl ∨ r = .cmd ∨ r = .len) (hb : b.busy = true) :
    b.writeReg d r = b.dropWrite := by
  obtain rfl | rfl | rfl := hr <;> simp [Block.writeReg, hb]

theorem Block.busWrite_window_busy (hoff : 0x10000 ≤ off.toNat) (hb : b.busy = true) :
    b.busWrite w off d = b.dropWrite := by
  simp [Block.busWrite, targetOf_buf hoff, Block.writeBuf, hb]

/-- Every target that a pending command protects: three registers and the whole buffer window. -/
theorem Block.busWrite_busy
    (hoff : off = Reg.ctrl.offset ∨ off = Reg.cmd.offset ∨ off = Reg.len.offset ∨ 0x10000 ≤ off.toNat)
    (hb : b.busy = true) : b.busWrite w off d = b.dropWrite := by
  obtain rfl | rfl | rfl | hwindow := hoff
  · rw [Block.busWrite_reg, Block.writeReg_busy (.inl rfl) hb]
  · rw [Block.busWrite_reg, Block.writeReg_busy (.inr (.inl rfl)) hb]
  · rw [Block.busWrite_reg, Block.writeReg_busy (.inr (.inr rfl)) hb]
  · exact Block.busWrite_window_busy hwindow hb

/-- Settles O7: the store is a `busWrite` to one of the protected targets, which `Block.busWrite_busy` says is dropped. -/
theorem writesWhileBusyAreDropped : Obligations.WritesWhileBusyAreDropped := by
  intro s w off d rest turns hnext hrst hbusy hlegal hoff
  rw [step_store hnext hlegal, hrst, if_neg Bool.false_ne_true, Block.busWrite_busy hoff hbusy, Block.dropWrite]

/-- Settles O6: the store is CMD's `writeReg`, which accepts the word on an idle block. -/
theorem cmdWriteWhenIdleAccepts : Obligations.CmdWriteWhenIdleAccepts := by
  intro s d rest turns hnext hrst hidle
  rw [step_storeReg .cmd hnext hrst, Block.writeReg_cmd_idle hidle, Block.accept]

end Sys2Proof.Machine
end

section
/-!
PROOFS. The range checks and the header capture of every command, and the two commands that only read the packet, CSUM and VAL
(spec/40_checksum.md R75 to R77).
-/

namespace Sys2Proof.Machine

variable {s : State} {p : Latch} {b : Block}

/-! ### The range checks and the header capture -/

theorem rangeChecked (i : Instr) (hl : s.block.latch = some p) : RangeChecked i s p :=
  ⟨fun hlong => exec_of_ends hl (ruleOf_lenRange i hlong),
    fun hfits hshort => exec_of_ends hl (ruleOf_truncated i hfits hshort)⟩

/-- VAL's own checks raise neither of the codes of the range checks. -/
theorem valOutcome_ne_rangeError (p : Latch) (b : Block) (c : Half) :
    valOutcome p b c ≠ .lenRange ∧ valOutcome p b c ≠ .truncated := by
  unfold valOutcome
  split_ifs <;> decide

/-- GEN patches the buffer only after the capture, so HDR shows the fields as they stood (`Block.generate_hdr`). -/
theorem ruleOf_ends_of_ready (i : Instr) (h : b.PacketReady p.n.toNat) : ∃ code b', ruleOf i p b = .ends code b' ∧
    b'.hdr = b.buf.capturedHdr ∧ code ≠ .lenRange ∧ code ≠ .truncated := by
  have hhdr := b.captureHeader_hdr
  cases i with
  | csum => exact ⟨_, _, ruleOf_csum_ready h, hhdr, by decide, by decide⟩
  | val => exact ⟨_, _, ruleOf_val_ready h, hhdr, valOutcome_ne_rangeError _ _ _⟩
  | plen => exact ⟨_, _, ruleOf_plen_ready h, hhdr, by decide, by decide⟩
  | gen =>
    rw [ruleOf_gen_ready h]
    split
    · exact ⟨_, _, rfl, hhdr, by decide, by decide⟩
    · exact ⟨_, _, rfl, hhdr, by decide, by decide⟩

/-- Settles O20: the range errors are `rangeChecked`, and on a ready packet every rule ends with the captured header and without
a range error (`ruleOf_ends_of_ready`). -/
theorem everyCommandChecksRangeAndCapturesHeader : Obligations.EveryCommandChecksRangeAndCapturesHeader := by
  refine fun i s p hl => ⟨rangeChecked i hl, fun hready => ?_⟩
  obtain ⟨code, b', hends, hhdr, hcode⟩ := ruleOf_ends_of_ready i hready
  exact ⟨_, exec_of_ends hl hends, hhdr, hcode⟩

/-! ### CSUM and VAL -/

/-- Settles O21: CSUM's rule on a ready packet, completed without error. -/
theorem csumComputesChecksum : Obligations.CsumComputesChecksum := by
  refine ⟨decode_encode .csum, fun s p hl => ⟨rangeChecked .csum hl, fun hready => ?_⟩⟩
  rw [exec_of_ends hl (ruleOf_csum_ready hready), Block.captureHeader_eq, Block.complete]

/-- The three checks on the packet itself: HDR holds its length and checksum fields after the capture. -/
theorem valOutcome_captureHeader (p : Latch) (b : Block) (c : Half) : valOutcome p b.captureHeader c =
    if c ≠ b.buf.byte 12 ++ b.buf.byte 13 then .checksumMismatch
    else if p.lenchk = true ∧ b.buf.byte 2 ++ b.buf.byte 3 ≠ p.n then .lengthMismatch
    else if b.buf.byte 14 ++ b.buf.byte 15 ≠ 0#16 then .authUnsupported
    else .none := by
  simp only [valOutcome, Block.captureHeader_hdr, Block.captureHeader_buf, Memory.capturedHdr, Memory.authType_eq,
    Bool.and_eq_true, bne_iff_ne]

/-- Settles O22: VAL's rule on a ready packet, completed with the outcome of its checks (`valOutcome_captureHeader`). -/
theorem valChecksInOrder : Obligations.ValChecksInOrder := by
  refine ⟨decode_encode .val, fun s p hl => ⟨rangeChecked .val hl, fun hready => ?_⟩⟩
  rw [exec_of_ends hl (ruleOf_val_ready hready), valOutcome_captureHeader, Block.captureHeader_eq, Block.complete]

end Sys2Proof.Machine
end

section
/-!
PROOFS. The checksum as arithmetic on bytes (spec/40_checksum.md R70, R71): the fold's fuel does not matter, the sum of the
big-endian words is a weighted sum of the packet's bytes, and the complement is a subtraction from 0xFFFF.
-/

namespace Sys2Proof.Machine

/-! ### The fold -/

/-- Every pass makes the value smaller, so any fuel from `s` on gives the same. -/
theorem foldLoop_eq_fold {fuel s : Nat} (h : s ≤ fuel) : foldLoop fuel s = fold s := by
  induction s using Nat.strong_induction_on generalizing fuel with
  | _ s ih =>
    by_cases hs : s ≤ 0xFFFF
    · rw [fold, foldLoop_of_le hs, foldLoop_of_le hs]
    · have hlt := foldPass_lt (not_le.1 hs)
      obtain ⟨f, rfl⟩ : ∃ f, fuel = f + 1 := ⟨fuel - 1, by omega⟩
      obtain ⟨g, rfl⟩ : ∃ g, s = g + 1 := ⟨s - 1, by omega⟩
      rw [fold, foldLoop, foldLoop, if_neg hs, if_neg hs, ih _ hlt (by omega), ih _ hlt (by omega)]

theorem fold_of_le {s : Nat} (h : s ≤ 0xFFFF) : fold s = s := foldLoop_of_le h

theorem fold_of_gt {s : Nat} (h : ¬s ≤ 0xFFFF) : fold s = fold (foldPass s) := by
  have hlt := foldPass_lt (not_le.1 h)
  obtain ⟨g, rfl⟩ : ∃ g, s = g + 1 := ⟨s - 1, by omega⟩
  rw [fold, foldLoop, if_neg h, foldLoop_eq_fold (by omega)]

theorem fold_le (s : Nat) : fold s ≤ 0xFFFF := by
  induction s using Nat.strong_induction_on with
  | _ s ih =>
    by_cases h : s ≤ 0xFFFF
    · rwa [fold_of_le h]
    · rw [fold_of_gt h]
      exact ih _ (foldPass_lt (not_le.1 h))

theorem checksum_toNat (m : Memory) (n : Nat) : (checksum m n).toNat = 0xFFFF - fold (packetSum m n) := by
  rw [checksum, BitVec.toNat_not, BitVec.toNat_ofNat, Nat.mod_eq_of_lt (Nat.lt_succ_of_le (fold_le _))]

/-! ### The sum of the words -/

/-- What byte `k` adds to the sum: as the high byte of its word at an even offset, as the low byte at an odd one. -/
def weightedByte (m : Memory) (n k : Nat) : Nat := (summedByte m n k).toNat * if k % 2 = 0 then 256 else 1

theorem weightedByte_inside (m : Memory) {n k : Nat} (h : k < n) : weightedByte m n k =
    if k = 12 ∨ k = 13 ∨ (16 ≤ k ∧ k ≤ 23) then 0 else (m.byte k).toNat * (if k % 2 = 0 then 256 else 1) := by
  by_cases hex : k = 12 ∨ k = 13 ∨ (16 ≤ k ∧ k ≤ 23)
  · rw [weightedByte, summedByte_eq, if_pos hex, if_neg (by rw [excluded_eq_false]; omega), BitVec.toNat_zero, Nat.zero_mul]
  · rw [weightedByte, summedByte_eq, if_neg hex, if_pos ⟨h, by rw [excluded_eq_false]; omega⟩]

theorem weightedByte_beyond (m : Memory) {n k : Nat} (h : n ≤ k) : weightedByte m n k = 0 := by
  simp [weightedByte, summedByte, h]

theorem summedWord_eq_weightedBytes (m : Memory) (n i : Nat) :
    (summedWord m n i).toNat = weightedByte m n (2 * i) + weightedByte m n (2 * i + 1) := by
  rw [summedWord_toNat, weightedByte, weightedByte, if_pos (by omega), if_neg (by omega), Nat.mul_one]

theorem sumWords_eq_sum (m : Memory) (n count : Nat) :
    sumWords m n count = ∑ k ∈ Finset.range (2 * count), weightedByte m n k := by
  induction count with
  | zero => rfl
  | succ c ih =>
    rw [sumWords, ih, summedWord_eq_weightedBytes, Nat.mul_succ, Finset.sum_range_succ, Finset.sum_range_succ, Nat.add_assoc]

/-- The words cover the packet and at most one pad byte, which adds nothing. -/
theorem packetSum_eq_sum (m : Memory) (n : Nat) : packetSum m n = ∑ k ∈ Finset.range n, weightedByte m n k := by
  have hcover : Finset.range n ⊆ Finset.range (2 * wordCount n) :=
    Finset.range_subset_range.2 (by unfold wordCount; omega)
  rw [packetSum, sumWords_eq_sum]
  refine (Finset.sum_subset hcover fun k _ hk => weightedByte_beyond m ?_).symm
  exact not_lt.1 fun hlt => hk (Finset.mem_range.2 hlt)

/-- R71: an odd packet's last byte, where it is summed, is the high byte of a word whose low byte is 0. -/
theorem summedWord_last_of_odd (m : Memory) {n : Nat} (hodd : n % 2 = 1) (hsummed : excluded (n - 1) = false) :
    summedWord m n (wordCount n - 1) = m.byte (n - 1) ++ 0#8 := by
  have hlast : 2 * (wordCount n - 1) = n - 1 := by unfold wordCount; omega
  rw [summedWord, hlast, summedByte_eq, summedByte_eq, if_pos ⟨by omega, hsummed⟩, if_neg (by omega)]

/-- Settles O48: the fold by `fold_of_gt`, the sum by `packetSum_eq_sum`, the complement by `checksum_toNat`, the pad by
`summedWord_last_of_odd`. -/
theorem checksumSumsBigEndianWords : Obligations.ChecksumSumsBigEndianWords := by
  refine ⟨fun sum => ?fold, fun m n => ⟨?sum, checksum_toNat m n, fun hodd hsummed => ?pad⟩⟩
  case fold =>
    split
    case isTrue hle => exact fold_of_le hle
    case isFalse hgt => exact fold_of_gt hgt
  case sum =>
    rw [packetSum_eq_sum]
    exact Finset.sum_congr rfl fun k hk => weightedByte_inside m (Finset.mem_range.1 hk)
  case pad => exact summedWord_last_of_odd m hodd (excluded_eq_false.2 (by omega))

end Sys2Proof.Machine
end

section
/-!
PROOFS. The two commands that write the packet, PLEN and GEN (spec/41_length_generate.md R90, R91): what each patch leaves in
the buffer, and the two ways GEN ends on a ready packet.
-/

namespace Sys2Proof.Machine

variable {p : Latch} {b : Block}

/-! ### The patches, offset by offset -/

/-- The length patch at every offset: N's more significant byte first, and nothing beyond the field. -/
theorem Memory.patchLength_bytes (m : Memory) (n : Half) :
    (m.patchLength n).read 2 = some (n.extractLsb' 8 8) ∧ (m.patchLength n).read 3 = some (n.extractLsb' 0 8) ∧
      ∀ k, k ≠ 2 → k ≠ 3 → (m.patchLength n).read k = m.read k := by
  refine ⟨by simp [Memory.read_patchLength], by simp [Memory.read_patchLength], fun k h2 h3 => ?_⟩
  rw [Memory.read_patchLength, if_neg h2, if_neg h3]

/-- The checksum patch at every offset, as `Memory.patchLength_bytes` says it of the length patch. -/
theorem Memory.patchChecksum_bytes (m : Memory) (c : Half) :
    (m.patchChecksum c).read 12 = some (c.extractLsb' 8 8) ∧ (m.patchChecksum c).read 13 = some (c.extractLsb' 0 8) ∧
      ∀ k, k ≠ 12 → k ≠ 13 → (m.patchChecksum c).read k = m.read k := by
  refine ⟨by simp [Memory.read_patchChecksum], by simp [Memory.read_patchChecksum], fun k h12 h13 => ?_⟩
  rw [Memory.read_patchChecksum, if_neg h12, if_neg h13]

/-! ### GEN's two ends on a ready packet -/

theorem ruleOf_gen_authUnsupported (h : b.PacketReady p.n.toNat) (hauth : b.buf.byte 14 ++ b.buf.byte 15 ≠ 0#16) :
    ruleOf .gen p b = .ends .authUnsupported b.captureHeader := by
  rw [ruleOf_gen_ready h, Memory.authType_eq, if_pos hauth]

theorem ruleOf_gen_generate (h : b.PacketReady p.n.toNat) (hauth : b.buf.byte 14 ++ b.buf.byte 15 = 0#16) :
    ruleOf .gen p b = .ends .none (b.captureHeader.generate p.n) := by
  rw [ruleOf_gen_ready h, Memory.authType_eq, if_neg (not_not.2 hauth)]

/-! ### The statements -/

/-- Settles O23: PLEN's rule on a ready packet, completed without error, with the length patch read by
`Memory.patchLength_bytes`. -/
theorem plenPatchesLength : Obligations.PlenPatchesLength := by
  refine ⟨decode_encode .plen, fun s p hl => ⟨rangeChecked .plen hl, fun hready => ?_⟩⟩
  refine ⟨s.block.buf.patchLength p.n, ?_, Memory.patchLength_bytes _ _⟩
  rw [exec_of_ends hl (ruleOf_plen_ready hready), Block.captureHeader_eq, Block.complete]

/-- Settles O24: the auth type decides how GEN's rule ends on a ready packet; where it generates, the checksum patch is laid
over the length patch, each read by its own lemma. -/
theorem genPatchesLengthThenChecksum : Obligations.GenPatchesLengthThenChecksum := by
  refine ⟨decode_encode .gen, fun s p hl => ⟨rangeChecked .gen hl, fun hready => ?_⟩⟩
  refine ⟨fun hauth => ?fails, fun hauth => ?patches⟩
  case fails =>
    rw [exec_of_ends hl (ruleOf_gen_authUnsupported hready hauth), Block.captureHeader_eq, Block.complete]
  case patches =>
    obtain ⟨hlenHigh, hlenLow, hlenElse⟩ := Memory.patchLength_bytes s.block.buf p.n
    refine ⟨s.block.buf.patchLength p.n, _, _, ?_, rfl, hlenHigh, hlenLow, hlenElse, Memory.patchChecksum_bytes _ _⟩
    rw [exec_of_ends hl (ruleOf_gen_generate hready hauth), Block.captureHeader_eq, Block.generate, Block.complete]

end Sys2Proof.Machine
end

section
/-!
PROOFS. Errors and the interrupt (spec/60_exceptions.md R101, R104, R107): what a rule that fails leaves of the block, and
what raises and clears `irq`.
-/

namespace Sys2Proof.Machine

variable {p : Latch} {b b' : Block} {code : ErrCode} {w : Width} {d : Word}

/-! ### A command that fails -/

theorem valOutcome_ne_illegalCmd (p : Latch) (b : Block) (c : Half) : valOutcome p b c ≠ .illegalCmd := by
  unfold valOutcome
  split_ifs <;> decide

/-- A rule fails in the range checks, before it changed anything, or on a ready packet: VAL after RESULT and HDR, GEN after HDR
and before its patches. -/
theorem ruleOf_fails {i : Instr} (h : ruleOf i p b = .ends code b') (hcode : code ≠ .none) :
    b'.buf = b.buf ∧ (code = .illegalCmd ∨ code = .lenRange ∨ code = .truncated → b' = b) ∧
      (i = .gen → b'.result = b.result) := by
  obtain ⟨-, rfl, -⟩ | ⟨-, rfl, -⟩ | ⟨-, hready⟩ := ruleOf_ends h
  · exact ⟨rfl, fun _ => rfl, fun _ => rfl⟩
  · exact ⟨rfl, fun _ => rfl, fun _ => rfl⟩
  obtain ⟨-, rfl, -⟩ | ⟨rfl, rfl, rfl⟩ | ⟨-, rfl, -⟩ | ⟨-, rfl, -, rfl⟩ | ⟨-, rfl, -⟩ := hready
  · exact absurd rfl hcode
  · obtain ⟨hlen, htrunc⟩ := valOutcome_ne_rangeError p b.captureHeader (checksum b.buf p.n.toNat)
    have hillegal := valOutcome_ne_illegalCmd p b.captureHeader (checksum b.buf p.n.toNat)
    exact ⟨rfl, fun hc => absurd hc (by simp only [hillegal, hlen, htrunc, or_self, not_false_eq_true]), nofun⟩
  · exact absurd rfl hcode
  · exact ⟨rfl, nofun, fun _ => rfl⟩
  · exact absurd rfl hcode

/-- Settles O28: an illegal word completes on the block as it stands, and a legal one on what its failing rule left
(`ruleOf_fails`). -/
theorem failedCommandLeavesThePacket : Obligations.FailedCommandLeavesThePacket := by
  intro s t p hl hturn hfails
  cases hd : decode p.word with
  | error e =>
    rw [engineTurn_illegal hl hd] at hturn
    cases hturn
    exact ⟨rfl, rfl, fun _ => ⟨rfl, rfl⟩, nofun⟩
  | ok i =>
    rw [engineTurn_legal hl hd] at hturn
    obtain ⟨q, code, b, hq, hends, rfl⟩ := exec_next hturn
    obtain ⟨hbuf, hsame, hgen⟩ := ruleOf_fails hends hfails
    refine ⟨rfl, hbuf, fun hcode => ?_, fun hi => hgen (Except.ok.inj hi)⟩
    obtain rfl := hsame hcode
    exact ⟨rfl, rfl⟩

/-! ### The interrupt output -/

theorem Block.irq_eq_true : b.irq = true ↔ b.ctrl.ie = true ∧ b.status.done = true := Bool.and_eq_true_iff

@[simp] theorem Block.complete_irq : (b.complete code).irq = b.ctrl.ie := Bool.and_true _

theorem Block.irq_of_not_done (h : b.status.done = false) : b.irq = false := by rw [Block.irq, h, Bool.and_false]

theorem Block.irq_of_not_enabled (h : b.ctrl.ie = false) : b.irq = false := by rw [Block.irq, h, Bool.false_and]

theorem Block.irq_busWrite_cmd (hb : b.busy = false) : (b.busWrite w Reg.cmd.offset d).irq = false := by
  rw [Block.busWrite_reg, Block.writeReg_cmd_idle hb]
  exact Block.irq_of_not_done (b.accept_done d)

theorem Block.irq_busWrite_status (hd : d.getLsbD 1 = true) : (b.busWrite w Reg.status.offset d).irq = false := by
  rw [Block.busWrite_reg, Block.writeReg_status]
  exact Block.irq_of_not_done (by simp [hd])

/-- Clearing CTRL.IE masks `irq` and keeps DONE. -/
theorem Block.irq_busWrite_ctrl (hb : b.busy = false) (hd : d.getLsbD 0 = false) :
    (b.busWrite w Reg.ctrl.offset d).irq = false ∧
      (b.busWrite w Reg.ctrl.offset d).status.done = b.status.done := by
  rw [Block.busWrite_reg, Block.writeReg_ctrl_idle d hb]
  exact ⟨Block.irq_of_not_enabled hd, rfl⟩

/-- Settles O31: completion sets DONE; acceptance and the STATUS write clear it, the CTRL write clears IE, reset clears both. -/
theorem irqIsIeAndDone : Obligations.IrqIsIeAndDone := fun _ _ _ =>
  ⟨Block.irq_eq_true, fun _ => Block.complete_irq, Block.irq_busWrite_cmd, Block.irq_busWrite_status,
    Block.irq_busWrite_ctrl, Block.irq_of_not_done rfl⟩

end Sys2Proof.Machine
end

section
/-!
PROOFS. The invariant (spec/10_state.md sections 3 to 6, spec/70_reset_and_hazards.md section 1): its clauses about the block
hold at reset and are kept by every Host write, every command's rule and every completion, and so every step keeps the whole.
-/

namespace Sys2Proof.Machine

variable {s t : State} {p : Latch} {b b' : Block} {code : ErrCode}

/-! ### The block's part of the invariant -/

/-- The clauses of `State.Inv` that speak of the block alone. -/
structure Block.Inv (b : Block) : Prop where
  capacity : capacityLegal b.bufBytes = true
  canonical : b.buf.wf
  inside : ∀ c ∈ b.buf, c.1 < b.bufBytes
  pending : ∀ p, b.latch = some p →
    p.n = b.len ∧ p.lenchk = b.ctrl.lenCheck ∧ b.status.done = false ∧ b.status.errCode = .none

theorem State.inv_iff : s.Inv ↔
    s.block.Inv ∧ Sparse.wf s.host.vars ∧ (s.rst = true → s.block = Block.reset s.block.bufBytes) :=
  ⟨fun h => ⟨⟨h.capacity, h.bufferCanonical, h.bufferInside, h.pending⟩, h.varsCanonical, h.inReset⟩,
    fun ⟨hb, hv, hr⟩ => ⟨hb.capacity, hb.canonical, hb.inside, hv, hb.pending, hr⟩⟩

theorem capacityLegal_iff {n : Nat} : capacityLegal n = true ↔ 24 ≤ n ∧ n ≤ 65535 := by
  simp [capacityLegal]

theorem Block.Inv.reset {n : Nat} (h : capacityLegal n = true) : (Block.reset n).Inv :=
  ⟨h, List.Pairwise.nil, nofun, nofun⟩

theorem Memory.inside_writeBytes {m : Memory} {k count n : Nat} {f : Nat → Byte} (h : ∀ c ∈ m, c.1 < n)
    (hk : k + count ≤ n) : ∀ c ∈ m.writeBytes k f count, c.1 < n := by
  intro c hc
  obtain ⟨-, hlt⟩ | hold := Memory.mem_writeBytes k hc
  · exact hlt.trans_le hk
  · exact h c hold

/-- No command is pending after a change made while idle, so only the buffer's clauses count. -/
theorem Block.Inv.of_idle (h : b.Inv) (hcap : b'.bufBytes = b.bufBytes) (hbuf : b'.buf = b.buf) (hl : b'.latch = none) :
    b'.Inv := by
  refine ⟨hcap ▸ h.capacity, hbuf ▸ h.canonical, hbuf ▸ hcap ▸ h.inside, fun p hp => ?_⟩
  rw [hl] at hp
  cases hp

theorem Block.Inv.complete (h : b.Inv) (code : ErrCode) : (b.complete code).Inv := h.of_idle rfl rfl rfl

theorem Block.latch_eq_none (h : b.busy = false) : b.latch = none :=
  Option.isNone_iff_eq_none.1 (Option.isSome_eq_false_iff.1 h)

/-- The latch takes LEN.N and CTRL.LEN_CHECK as they stand, and DONE and ERRCODE are cleared. -/
theorem Block.Inv.accept (h : b.Inv) (d : Word) : (b.accept d).Inv := by
  refine ⟨h.capacity, h.canonical, h.inside, fun p hp => ?_⟩
  cases hp
  exact ⟨rfl, rfl, rfl, rfl⟩

theorem Block.Inv.clearStatus (h : b.Inv) (d : Word) : { b with status := b.status.clearedBy d }.Inv := by
  refine ⟨h.capacity, h.canonical, h.inside, fun p hp => ?_⟩
  obtain ⟨hn, hchk, hdone, hcode⟩ := h.pending p hp
  exact ⟨hn, hchk, by simp [hdone], hcode⟩

theorem Block.Inv.busWriteBuf {w : Width} {k : Nat} (h : b.Inv) (hk : k + w.bytes ≤ b.bufBytes) (d : Word) :
    { b with buf := b.buf.busWrite k w d }.Inv :=
  ⟨h.capacity, Memory.busWrite_wf _ _ _ h.canonical, Memory.inside_writeBytes h.inside hk, h.pending⟩

theorem target_buf_fits {bufBytes k : Nat} {w : Width} {off : Offset} (hf : hostFaultOf bufBytes w off = none)
    (ht : targetOf off = .buf k) : k + w.bytes ≤ bufBytes := by
  obtain ⟨r, -, -, hr⟩ | ⟨k', -, -, hfits, hk⟩ := target_cases hf
  · cases hr.symm.trans ht
  · cases hk.symm.trans ht
    exact hfits

theorem Block.Inv.busWrite {w : Width} {off : Offset} {d : Word} (h : b.Inv)
    (hf : hostFaultOf b.bufBytes w off = none) : (b.busWrite w off d).Inv := by
  obtain ⟨-, he⟩ | ⟨hb, he⟩ | ⟨-, he⟩ | he | ⟨hb, he⟩ | he | ⟨k, -, ht, he⟩ := busWrite_cases b w off d <;> rw [he]
  · exact ⟨h.capacity, h.canonical, h.inside, h.pending⟩
  · exact h.of_idle rfl rfl (Block.latch_eq_none hb)
  · exact h.accept d
  · exact h.clearStatus d
  · exact h.of_idle rfl rfl (Block.latch_eq_none hb)
  · exact h
  · exact h.busWriteBuf (target_buf_fits hf ht) d

/-! ### The commands -/

/-- What a command's rule leaves in the buffer: nothing new, PLEN's length patch, or GEN's two patches; a patch only on a
packet in range. -/
theorem ruleOf_buf {i : Instr} (h : ruleOf i p b = .ends code b') :
    b'.buf = b.buf ∨
    (i = .plen ∧ b.PacketReady p.n.toNat ∧ b'.buf = b.buf.patchLength p.n) ∨
    (i = .gen ∧ b.PacketReady p.n.toNat ∧
      b'.buf = (b.buf.patchLength p.n).patchChecksum (checksum (b.buf.patchLength p.n) p.n.toNat)) := by
  obtain ⟨-, rfl, -⟩ | ⟨-, rfl, -⟩ | ⟨hready, hends⟩ := ruleOf_ends h
  · exact .inl rfl
  · exact .inl rfl
  obtain ⟨-, -, rfl⟩ | ⟨-, -, rfl⟩ | ⟨rfl, -, rfl⟩ | ⟨-, -, -, rfl⟩ | ⟨rfl, -, -, rfl⟩ := hends
  · exact .inl rfl
  · exact .inl rfl
  · exact .inr (.inl ⟨rfl, hready, rfl⟩)
  · exact .inl rfl
  · exact .inr (.inr ⟨rfl, hready, rfl⟩)

/-- The patched fields lie in the header, which every legal capacity holds. -/
theorem Block.Inv.patch {m : Memory} {k n : Nat} {v : BitVec (8 * n)} (hb : b.Inv) (hk : k + n ≤ 24)
    (h : m.wf ∧ ∀ c ∈ m, c.1 < b.bufBytes) : (m.memWrite k n v).wf ∧ ∀ c ∈ m.memWrite k n v, c.1 < b.bufBytes := by
  obtain ⟨hcap, -⟩ := capacityLegal_iff.1 hb.capacity
  obtain ⟨hwf, hin⟩ := h
  exact ⟨Memory.writeBytes_wf _ _ _ hwf, Memory.inside_writeBytes hin (hk.trans hcap)⟩

theorem ruleOf_keeps_inv {i : Instr} (h : ruleOf i p b = .ends code b') (hb : b.Inv) : b'.Inv := by
  have hframe := ruleOf_frame h
  obtain ⟨hwf, hin⟩ : b'.buf.wf ∧ ∀ c ∈ b'.buf, c.1 < b.bufBytes := by
    obtain he | ⟨-, -, he⟩ | ⟨-, -, he⟩ := ruleOf_buf h <;> rw [he]
    · exact ⟨hb.canonical, hb.inside⟩
    · exact hb.patch (by decide) ⟨hb.canonical, hb.inside⟩
    · exact hb.patch (by decide) (hb.patch (by decide) ⟨hb.canonical, hb.inside⟩)
  refine ⟨hframe.bufBytes ▸ hb.capacity, hwf, hframe.bufBytes ▸ hin, fun q hq => ?_⟩
  rw [hframe.len, hframe.ctrl, hframe.status]
  exact hb.pending q (hframe.latch ▸ hq)

/-! ### The turns -/

/-- Asserting `rst` abandons a pending command, so none is pending while it is asserted. -/
theorem State.Inv.rst_eq_false (hi : s.Inv) (hl : s.block.latch = some p) : s.rst = false := by
  by_contra hrst
  rw [hi.inReset (Bool.eq_true_of_not_eq_false hrst)] at hl
  cases hl

theorem State.Inv.complete (hi : s.Inv) (hl : s.block.latch = some p) (hb : b.Inv) (code : ErrCode) :
    { s with block := b.complete code }.Inv :=
  State.inv_iff.2 ⟨hb.complete code, hi.varsCanonical, fun hrst => absurd hrst (by simp [hi.rst_eq_false hl])⟩

theorem engineTurn_keeps_inv (hi : s.Inv) (h : s.engineTurn = .next t) : t.Inv := by
  have hb := (State.inv_iff.1 hi).1
  obtain ⟨-, rfl⟩ | ⟨-, i, -, -, hexec⟩ | ⟨p, e, hl, -, rfl⟩ := engineTurn_next h
  · exact hi
  · obtain ⟨p, code, b, hl, hends, rfl⟩ := exec_next hexec
    exact hi.complete hl (ruleOf_keeps_inv hends hb) code
  · exact hi.complete hl hb .illegalCmd

theorem hostTurn_keeps_inv (hi : s.Inv) (h : s.hostTurn = .next t) : t.Inv := by
  obtain ⟨hb, hv, hr⟩ := State.inv_iff.1 hi
  obtain ⟨-, rfl⟩ | ⟨rest, -, rfl⟩ | ⟨r, v, rest, rfl⟩ | ⟨w, off, d, rest, -, hf, rfl⟩ := hostTurn_next h
  · exact hi
  · exact State.inv_iff.2 ⟨hb, hv, hr⟩
  · exact State.inv_iff.2 ⟨hb, Sparse.write_wf _ _ _ hv, hr⟩
  · refine State.inv_iff.2 ⟨?block, hv, fun hrst : s.rst = true => ?inReset⟩
    case block =>
      dsimp only
      split
      · exact hb
      · exact hb.busWrite hf
    case inReset =>
      dsimp only
      rw [if_pos hrst]
      exact hr hrst

theorem driveRst_keeps_inv (hi : s.Inv) (level : Bool) : (s.driveRst level).Inv := by
  obtain ⟨hb, hv, -⟩ := State.inv_iff.1 hi
  unfold State.driveRst
  split
  · exact State.inv_iff.2 ⟨.reset hb.capacity, hv, fun _ => rfl⟩
  · rename_i hlow
    exact State.inv_iff.2 ⟨hb, hv, fun hlevel => absurd (Bool.or_eq_true_iff.2 (.inl hlevel)) hlow⟩

theorem State.Inv.setSched (hi : s.Inv) (turns : List Turn) : { s with sched := turns }.Inv :=
  ⟨hi.capacity, hi.bufferCanonical, hi.bufferInside, hi.varsCanonical, hi.pending, hi.inReset⟩

/-- Settles O44: a step is one turn of the Host, of the Engine or of `rst` (`step_next`), and each keeps the invariant. -/
theorem everyStepKeepsTheInvariant : Obligations.EveryStepKeepsTheInvariant := by
  intro s t hi hstep
  obtain ⟨turns, hhost | hengine | ⟨level, rfl⟩⟩ := step_next hstep
  · exact hostTurn_keeps_inv (hi.setSched turns) hhost
  · exact engineTurn_keeps_inv (hi.setSched turns) hengine
  · exact driveRst_keeps_inv (hi.setSched turns) level

/-! ### Reset -/

theorem Config.bufBytes_legal : 24 ≤ Config.bufBytes ∧ Config.bufBytes ≤ 65535 := by
  have := Config.bufExtra.isLt
  unfold Config.bufBytes
  omega

theorem resetWith_inv {n : Nat} (h : capacityLegal n = true) : (State.resetWith n).Inv :=
  State.inv_iff.2 ⟨.reset h, List.Pairwise.nil, nofun⟩

/-- Settles O43: the implementation's capacity is a legal one, so its reset is the reset with a legal capacity. -/
theorem invariantHoldsAtReset : Obligations.InvariantHoldsAtReset :=
  ⟨resetWith_inv (capacityLegal_iff.2 Config.bufBytes_legal),
    fun _ hlow hhigh => resetWith_inv (capacityLegal_iff.2 ⟨hlow, hhigh⟩)⟩

end Sys2Proof.Machine
end

section
/-!
PROOFS. Host reads (spec/20_memory.md R35 to R41, spec/30_encoding.md R59) and the Host writes that are left: what a register
and a lane of the buffer window read as, and what of the block a Host turn can move.
-/

namespace Sys2Proof.Machine

variable {s : State} {b : Block} {x : Nat} {w : Width} {off : Offset} {rest : List HostOp} {turns : List Turn}

/-! ### Register reads -/

/-- A word load at a register's offset, with `rst` released, never faults: it is the register's read. -/
theorem step_loadReg (r : Reg) (h : s.HostNext (.load x .w4 r.offset) rest turns) (hrst : s.rst = false) {v : Word}
    (hv : s.block.readReg s.freeWord r = v) : step s = .next { s with
      host := { program := rest, vars := Sparse.write s.host.vars x v, draws := s.host.draws + 1 }
      sched := turns } := by
  rw [step_load h (hostFaultOf_reg _ r), hostReadValue_reg r hrst, hv, HostAgent.received]

theorem Block.readReg_ctrl (free : Word) :
    b.readReg free .ctrl = BitVec.ofNat 32 (2 * b.ctrl.lenCheck.toNat + b.ctrl.ie.toNat) := b.ctrlWord_eq

theorem Block.readReg_len (free : Word) : b.readReg free .len = BitVec.ofNat 32 b.len.toNat := b.lenWord_eq

theorem Block.readReg_status_idle (free : Word) (hb : b.busy = false) : b.readReg free .status =
    BitVec.ofNat 32 (16 * b.status.errCode.code.toNat + 4 * b.status.busyWr.toNat + 2 * b.status.done.toNat) := by
  rw [Block.readReg, Block.statusWord_eq, hb, Bool.toNat_false, Nat.add_zero]

theorem Block.readReg_result_idle (free : Word) (hb : b.busy = false) :
    b.readReg free .result = BitVec.ofNat 32 b.result.toNat := by
  rw [Block.readReg, hb, if_neg Bool.false_ne_true, Block.resultWord_eq]

theorem Block.readReg_hdr_idle (free : Word) (hb : b.busy = false) :
    b.readReg free .hdr = BitVec.ofNat 32 (65536 * b.hdr.lenf.toNat + b.hdr.ckf.toNat) := by
  rw [Block.readReg, hb, if_neg Bool.false_ne_true, Block.hdrWord_eq]

/-- While a command is pending DONE and ERRCODE are 0, so STATUS shows BUSYWR and BUSY alone. -/
theorem Block.readReg_status_busy (hi : b.Inv) (free : Word) (hb : b.busy = true) :
    b.readReg free .status = BitVec.ofNat 32 (4 * b.status.busyWr.toNat + 1) := by
  obtain ⟨p, hp⟩ := Option.isSome_iff_exists.1 hb
  obtain ⟨-, -, hdone, hcode⟩ := hi.pending p hp
  rw [Block.readReg, Block.statusWord_eq, hdone, hcode, hb]
  simp [ErrCode.code]

theorem Block.readReg_result_busy (free : Word) (hb : b.busy = true) : b.readReg free .result = free := if_pos hb

theorem Block.readReg_hdr_busy (free : Word) (hb : b.busy = true) : b.readReg free .hdr = free := if_pos hb

/-- Settles O13: each offset is a register's, and the load is that register's read on an idle block. -/
theorem registersReadAsTheirFields : Obligations.RegistersReadAsTheirFields := by
  intro s x off rest turns hnext hrst hidle v hv
  obtain ⟨rfl, rfl⟩ | ⟨rfl, rfl⟩ | ⟨rfl, rfl⟩ | ⟨rfl, rfl⟩ | ⟨rfl, rfl⟩ | ⟨rfl, rfl⟩ := hv
  · exact step_loadReg .ctrl hnext hrst (Block.readReg_ctrl _)
  · exact step_loadReg .cmd hnext hrst rfl
  · exact step_loadReg .status hnext hrst (Block.readReg_status_idle _ hidle)
  · exact step_loadReg .len hnext hrst (Block.readReg_len _)
  · exact step_loadReg .result hnext hrst (Block.readReg_result_idle _ hidle)
  · exact step_loadReg .hdr hnext hrst (Block.readReg_hdr_idle _ hidle)

/-- Settles O14: RESULT and HDR read as the draw, STATUS by the invariant, the rest as on an idle block. -/
theorem registerReadsWhileBusy : Obligations.RegisterReadsWhileBusy := by
  intro s x off rest turns hnext hrst hbusy hi v hv
  obtain ⟨rfl | rfl, rfl⟩ | ⟨rfl, rfl⟩ | ⟨rfl, rfl⟩ | ⟨rfl, rfl⟩ | ⟨rfl, rfl⟩ := hv
  · exact step_loadReg .result hnext hrst (Block.readReg_result_busy _ hbusy)
  · exact step_loadReg .hdr hnext hrst (Block.readReg_hdr_busy _ hbusy)
  · exact step_loadReg .cmd hnext hrst rfl
  · exact step_loadReg .ctrl hnext hrst (Block.readReg_ctrl _)
  · exact step_loadReg .len hnext hrst (Block.readReg_len _)
  · exact step_loadReg .status hnext hrst (Block.readReg_status_busy (State.inv_iff.1 hi).1 _ hbusy)

/-- Settles O12: a load that does not fault is `step_load`, whose next state has the block as it was. -/
theorem readsHaveNoSideEffects : Obligations.ReadsHaveNoSideEffects := fun _ _ _ _ _ _ hnext hlegal =>
  ⟨_, step_load hnext hlegal⟩

/-! ### The `wait` loop -/

theorem step_wait (h : s.HostNext (.wait x) rest turns) : step s = .next { s with
    host := s.host.received x (s.hostReadValue .w4 (Reg.offset .status))
      (if (s.hostReadValue .w4 (Reg.offset .status)).getLsbD 0 then .wait x :: rest else rest)
    sched := turns } := by
  rw [step_of_hostNext h, State.hostTurn]
  simp only [h.program, State.hostWait]
  exact hostLoad_of_legal (s := { s with sched := turns }) (hostFaultOf_reg _ .status)

theorem getLsbD_append_low {m n j : Nat} (x : BitVec m) (y : BitVec n) (h : j < n) :
    (x ++ y).getLsbD j = y.getLsbD j := by
  rw [BitVec.getLsbD_append, if_pos h]

/-- BUSY is the last of the fields that make up STATUS. -/
theorem Block.statusWord_bit_zero (b : Block) : b.statusWord.getLsbD 0 = b.busy := by
  rw [Block.statusWord, getLsbD_append_low _ _ (by decide), getLsbD_append_low _ _ (by decide),
    getLsbD_append_low _ _ (by decide), getLsbD_append_low _ _ (by decide), getLsbD_append_low _ _ (by decide), bit,
    BitVec.getLsbD_ofBool, decide_eq_true rfl, Bool.true_and]

theorem hostReadValue_rst (w : Width) (off : Offset) (hrst : s.rst = true) :
    s.hostReadValue w off = ofLanes w (lane s.freeWord) := if_pos hrst

/-- Settles O17: the value read is STATUS, whose bit 0 is BUSY. -/
theorem waitLoopsWhileBusy : Obligations.WaitLoopsWhileBusy := by
  intro s x rest turns hnext hrst
  rw [step_wait hnext, hostReadValue_reg .status hrst, Block.readReg, Block.statusWord_bit_zero, Block.statusWord_eq,
    HostAgent.received]

/-- Settles O51: the value read is the whole draw, which is made of its own lanes. -/
theorem waitDuringRstReadsAnyValue : Obligations.WaitDuringRstReadsAnyValue := by
  intro s x rest turns hnext hrst
  rw [step_wait hnext, hostReadValue_rst _ _ hrst, ofLanes_lane, State.freeWord, HostAgent.received]

/-! ### The buffer window -/

theorem lane_ofLanes_inside (w : Width) (f : Nat → Byte) {i : Nat} (hi : i < w.bytes) : lane (ofLanes w f) i = f i := by
  have hw : w.bytes ≤ 4 := by cases w <;> decide
  rw [lane_ofLanes w f (hi.trans_le hw), laneOf, if_pos hi]

theorem lane_ofLanes_beyond (w : Width) (f : Nat → Byte) {i : Nat} (hi : i < 4) (hw : w.bytes ≤ i) :
    lane (ofLanes w f) i = 0#8 := by
  rw [lane_ofLanes w f hi, laneOf, if_neg (not_lt.2 hw)]

theorem patchable_iff {k : Nat} : patchable k = true ↔ k = 2 ∨ k = 3 ∨ k = 12 ∨ k = 13 := by
  simp [patchable, or_assoc]

theorem Block.hostByte_eq (b : Block) (free : Byte) (k : Nat) : b.hostByte free k =
    if b.busy = true ∧ (k = 2 ∨ k = 3 ∨ k = 12 ∨ k = 13) then free else (b.buf.read k).getD free := by
  simp only [Block.hostByte, Bool.and_eq_true, patchable_iff]

theorem hostReadValue_window {k : Nat} (hoff : off.toNat = 0x10000 + k) (hrst : s.rst = false) :
    s.hostReadValue w off = ofLanes w fun i => s.block.hostByte (lane s.freeWord i) (k + i) := by
  simp [State.hostReadValue, hrst, Block.busRead, targetOf_window hoff]

/-- Settles O15: the value is made of the window's host bytes (`hostReadValue_window`), and each lane is one of them. -/
theorem bufferReadGoesByLanes : Obligations.BufferReadGoesByLanes := by
  intro s x w off k rest turns hnext hrst hoff haligned hfits
  refine ⟨_, step_load hnext (hostFaultOf_window hoff haligned hfits), ?_⟩
  rw [hostReadValue_window hoff hrst]
  refine ⟨fun i hi hw => lane_ofLanes_beyond w _ hi hw, fun i hi => ?_⟩
  rw [← lane, lane_ofLanes_inside w _ hi, Block.hostByte_eq]
  cases s.block.buf.read (k + i) <;> rfl

theorem Block.busWrite_window_idle {k : Nat} {d : Word} (hoff : off.toNat = 0x10000 + k) (hb : b.busy = false) :
    b.busWrite w off d = { b with buf := b.buf.busWrite k w d } := by
  simp [Block.busWrite, targetOf_window hoff, Block.writeBuf, hb]

/-- Settles O11: the store writes the window's bytes, which `Memory.read_busWrite` reads back at every offset. -/
theorem bufferWriteGoesByLanes : Obligations.BufferWriteGoesByLanes := by
  intro s w off k d rest turns hnext hrst hidle hoff haligned hfits
  refine ⟨s.block.buf.busWrite k w d, ?_, fun i hi => ?_, fun j hj => ?_⟩
  · rw [step_store hnext (hostFaultOf_window hoff haligned hfits), hrst, if_neg Bool.false_ne_true,
      Block.busWrite_window_idle hoff hidle]
  · rw [Memory.read_busWrite, if_pos (by omega), Nat.add_sub_cancel_left, lane]
  · rw [Memory.read_busWrite, if_neg (by omega)]

/-! ### Writes that move little or nothing of the block -/

theorem step_storeReg_ignored (r : Reg) {d : Word} (h : s.HostNext (.store .w4 r.offset d) rest turns)
    (hr : s.block.writeReg d r = s.block) :
    step s = .next { s with host := { s.host with program := rest }, sched := turns } := by
  rw [step_store h (hostFaultOf_reg _ r), Block.busWrite_reg, hr, ite_self]

/-- Settles O10: `writeReg` of RESULT and of HDR answers the block as it is, and under `rst` no store acts. -/
theorem resultAndHdrIgnoreWrites : Obligations.ResultAndHdrIgnoreWrites := by
  rintro s off d rest turns hnext (rfl | rfl)
  · exact step_storeReg_ignored .result hnext rfl
  · exact step_storeReg_ignored .hdr hnext rfl

/-- While a command is pending a write moves DONE and BUSYWR at most, and never sets DONE. -/
theorem Block.busWrite_while_busy (w : Width) (off : Offset) (d : Word) (hb : b.busy = true) :
    b.busWrite w off d = { b with status := { b.status with
      done := (b.busWrite w off d).status.done, busyWr := (b.busWrite w off d).status.busyWr } } ∧
    (b.status.done = false → (b.busWrite w off d).status.done = false) := by
  have idle {q : Prop} (h : b.busy = false) : q := absurd (hb.symm.trans h) (by decide)
  obtain ⟨-, he⟩ | ⟨hidle, -⟩ | ⟨hidle, -⟩ | he | ⟨hidle, -⟩ | he | ⟨k, hidle, -⟩ := busWrite_cases b w off d
  · rw [he]; exact ⟨rfl, id⟩
  · exact idle hidle
  · exact idle hidle
  · rw [he]; exact ⟨rfl, fun hdone => by simp [hdone]⟩
  · exact idle hidle
  · rw [he]; exact ⟨rfl, id⟩
  · exact idle hidle

/-- Of the ways a Host turn can go only the store reaches the block. -/
theorem hostTurn_while_busy {t : State} (h : s.hostTurn = .next t) (hb : s.block.busy = true) :
    t.block = { s.block with status := { s.block.status with
      done := t.block.status.done, busyWr := t.block.status.busyWr } } ∧
    (s.block.status.done = false → t.block.status.done = false) := by
  obtain ⟨-, rfl⟩ | ⟨_, -, rfl⟩ | ⟨_, _, _, rfl⟩ | ⟨w, off, d, _, -, -, rfl⟩ := hostTurn_next h
  · exact ⟨rfl, id⟩
  · exact ⟨rfl, id⟩
  · exact ⟨rfl, id⟩
  · dsimp only
    split
    · exact ⟨rfl, id⟩
    · exact Block.busWrite_while_busy w off d hb

/-- Settles O18: the step is the Host's turn, and `hostTurn_while_busy` says what that leaves of the block. -/
theorem pendingCommandIsIsolatedFromTheHost : Obligations.PendingCommandIsIsolatedFromTheHost := by
  intro s t turns hbusy _ hsched hstep
  rw [step_of_sched hsched] at hstep
  exact hostTurn_while_busy (s := { s with sched := turns }) hstep hbusy

end Sys2Proof.Machine
end

section
/-!
PROOFS. What every completed command does and leaves (spec/60_exceptions.md R100 to R102, spec/10_state.md R25), and where a
command stops at an unwritten byte (spec/20_memory.md R41).
-/

namespace Sys2Proof.Machine

variable {s t : State} {p : Latch} {b b' : Block} {code : ErrCode} {i : Instr}

/-! ### The unwritten byte -/

theorem Memory.firstUnwritten_of_lowest {m : Memory} {n k : Nat} (hk : k < n) (hnone : m.read k = none)
    (hlow : ∀ j, j < k → m.read j ≠ none) : m.firstUnwritten n = some k := by
  rw [Memory.firstUnwritten, List.find?_range_eq_some]
  refine ⟨by simp [hnone], List.mem_range.2 hk, fun j hj => ?_⟩
  simp [Option.isSome_iff_ne_none, hlow j hj]

/-- Every command's rule begins with the range checks and the header capture. -/
theorem ruleOf_eq_withHeader (i : Instr) (p : Latch) (b : Block) : ∃ rest, ruleOf i p b = withHeader p b rest := by
  cases i with
  | csum => rw [ruleOf, csumRule]; exact ⟨_, rfl⟩
  | gen => rw [ruleOf, genRule]; exact ⟨_, rfl⟩
  | val => rw [ruleOf, valRule]; exact ⟨_, rfl⟩
  | plen => rw [ruleOf, plenRule]; exact ⟨_, rfl⟩

theorem ruleOf_uninit {k : Nat} (i : Instr) (hfits : p.n.toNat ≤ b.bufBytes) (h24 : 24 ≤ p.n.toNat)
    (hu : b.buf.firstUnwritten p.n.toNat = some k) : ruleOf i p b = .uninit k := by
  obtain ⟨rest, hrule⟩ := ruleOf_eq_withHeader i p b
  rw [hrule, withHeader_uninit hfits h24 hu]

/-- Settles O25: the lowest unwritten byte is the one the range checks find, whichever rule they begin. -/
theorem unwrittenByteInRangeStopsTheCommand : Obligations.UnwrittenByteInRangeStopsTheCommand := by
  intro i s p k hl h24 hfits hk hnone hlow
  rw [exec_eq_runCommand]
  exact runCommand_uninit hl (ruleOf_uninit i hfits h24 (Memory.firstUnwritten_of_lowest hk hnone hlow))

/-! ### The frame -/

/-- Settles O26: the rule leaves the registers it does not name (`ruleOf_frame`), and the completion records the outcome. -/
theorem everyCompletionFrame : Obligations.EveryCompletionFrame := by
  intro i s t hexec
  obtain ⟨p, code, b, hl, hends, rfl⟩ := exec_next hexec
  have hframe := ruleOf_frame hends
  have hirq : (b.complete code).irq = s.block.ctrl.ie := by rw [Block.complete_irq, hframe.ctrl]
  have hbusyWr : b.status.busyWr = s.block.status.busyWr := by rw [hframe.status]
  exact ⟨rfl, rfl, rfl, hbusyWr, hframe.ctrl, hframe.len, hframe.bufBytes, hirq, rfl, rfl, rfl⟩

theorem patchable_eq_false {k : Nat} : patchable k = false ↔ k ≠ 2 ∧ k ≠ 3 ∧ k ≠ 12 ∧ k ≠ 13 := by
  rw [Bool.eq_false_iff, ne_eq, patchable_iff]
  simp only [not_or, ne_eq]

/-- Settles O27: the frame of every rule outside the patchable bytes, and what `ruleOf_buf` says of each command's buffer. -/
theorem commandsWriteOnlyTheirHeaderBytes : Obligations.CommandsWriteOnlyTheirHeaderBytes := by
  intro i s t hexec
  obtain ⟨p, code, b, hl, hends, rfl⟩ := exec_next hexec
  refine ⟨fun k h2 h3 h12 h13 => ?outside, fun hi => ?readers, fun hi k h2 h3 => ?plen⟩
  case outside => exact (ruleOf_frame hends).bytes k (patchable_eq_false.2 ⟨h2, h3, h12, h13⟩)
  case readers =>
    obtain he | ⟨rfl, -⟩ | ⟨rfl, -⟩ := ruleOf_buf hends
    · exact he
    · simp at hi
    · simp at hi
  case plen =>
    obtain he | ⟨-, -, he⟩ | ⟨rfl, -⟩ := ruleOf_buf hends
    · exact congrArg (Memory.read · k) he
    · obtain ⟨-, -, hrest⟩ := s.block.buf.patchLength_bytes p.n
      exact (congrArg (Memory.read · k) he).trans (hrest k h2 h3)
    · cases hi

/-! ### The error codes -/

/-- Settles O30: the table of codes, read off `ErrCode.code`. -/
theorem errorCodeNumbers : Obligations.ErrorCodeNumbers := ⟨rfl, rfl, rfl, rfl, rfl, rfl, rfl⟩

/-- What each of VAL's own codes says of the block it was computed on. -/
theorem valOutcome_causes (p : Latch) (b : Block) (c : Half) :
    (valOutcome p b c = .checksumMismatch → c ≠ b.hdr.ckf) ∧
    (valOutcome p b c = .lengthMismatch → c = b.hdr.ckf ∧ p.lenchk = true ∧ b.hdr.lenf ≠ p.n) ∧
    (valOutcome p b c = .authUnsupported → b.buf.authType ≠ 0#16) := by
  unfold valOutcome
  split_ifs <;> simp_all

/-- No command raises ILLEGAL_CMD, and outside the range errors a code is raised by GEN or VAL alone, under the cause its name
says. -/
def CodeHasCause (i : Instr) (p : Latch) (b b' : Block) (code : ErrCode) : Prop :=
  code ≠ .illegalCmd ∧
  (code = .checksumMismatch → i = .val ∧ b'.result ≠ b'.hdr.ckf) ∧
  (code = .lengthMismatch → i = .val ∧ b'.result = b'.hdr.ckf ∧ p.lenchk = true ∧ b'.hdr.lenf ≠ p.n) ∧
  (code = .authUnsupported → (i = .gen ∨ i = .val) ∧ b.buf.authType ≠ 0#16)

theorem ruleOf_code_has_cause (h : ruleOf i p b = .ends code b') : CodeHasCause i p b b' code := by
  obtain ⟨rfl, -⟩ | ⟨rfl, -⟩ | ⟨-, hends⟩ := ruleOf_ends h
  · exact ⟨nofun, nofun, nofun, nofun⟩
  · exact ⟨nofun, nofun, nofun, nofun⟩
  obtain ⟨-, rfl, -⟩ | ⟨rfl, rfl, rfl⟩ | ⟨-, rfl, -⟩ | ⟨rfl, rfl, hauth, -⟩ | ⟨-, rfl, -⟩ := hends
  · exact ⟨nofun, nofun, nofun, nofun⟩
  · obtain ⟨hck, hlen, hauth⟩ := valOutcome_causes p b.captureHeader (checksum b.buf p.n.toNat)
    exact ⟨valOutcome_ne_illegalCmd _ _ _, fun h => ⟨rfl, hck h⟩, fun h => ⟨rfl, hlen h⟩, fun h => ⟨.inr rfl, hauth h⟩⟩
  · exact ⟨nofun, nofun, nofun, nofun⟩
  · exact ⟨nofun, nofun, nofun, fun _ => ⟨.inl rfl, hauth⟩⟩
  · exact ⟨nofun, nofun, nofun, nofun⟩

/-- A rule that ended passed the range checks with a ready packet, or ended with the error of the check that failed. -/
theorem ruleOf_code_range (h : ruleOf i p b = .ends code b') :
    (code = .lenRange ↔ b.bufBytes < p.n.toNat) ∧ (code = .truncated ↔ p.n.toNat < 24 ∧ p.n.toNat ≤ b.bufBytes) := by
  by_cases hlong : b.bufBytes < p.n.toNat
  · obtain ⟨rfl, -⟩ := CmdResult.ends.inj ((ruleOf_lenRange i hlong).symm.trans h)
    exact ⟨iff_of_true rfl hlong, iff_of_false nofun (by omega)⟩
  by_cases hshort : p.n.toNat < 24
  · obtain ⟨rfl, -⟩ := CmdResult.ends.inj ((ruleOf_truncated i (not_lt.1 hlong) hshort).symm.trans h)
    exact ⟨iff_of_false nofun hlong, iff_of_true rfl ⟨hshort, not_lt.1 hlong⟩⟩
  · obtain ⟨-, -, hg⟩ | ⟨-, -, -, hg⟩ | ⟨hready, -⟩ := ruleOf_ends h
    · exact absurd hg hlong
    · exact absurd hg hshort
    · obtain ⟨code', b'', hends, -, hlen, htrunc⟩ := ruleOf_ends_of_ready i hready
      obtain ⟨rfl, -⟩ := CmdResult.ends.inj (hends.symm.trans h)
      exact ⟨iff_of_false hlen hlong, iff_of_false htrunc (by omega)⟩

/-- Settles O29: the code a command completes with is the one its rule ended with. -/
theorem errorCodesHaveTheirCauses : Obligations.ErrorCodesHaveTheirCauses := by
  intro i s t p hl hexec
  obtain ⟨q, code, b, hq, hends, rfl⟩ := exec_next hexec
  cases hl.symm.trans hq
  obtain ⟨hrange, htruncated⟩ := ruleOf_code_range hends
  obtain ⟨hillegal, hchecksum, hlength, hauth⟩ := ruleOf_code_has_cause hends
  rw [← Memory.authType_eq]
  exact ⟨hillegal, hrange, htruncated, hchecksum, hlength, hauth⟩

end Sys2Proof.Machine
end

section
/-!
PROOFS. The turns of the machine (spec/10_state.md R10, spec/70_reset_and_hazards.md R120 to R123, spec/60_exceptions.md R114,
R116): the Engine's turn, `rst`, the turns that change nothing, the wait for `irq`, and several blocks in one system.
-/

namespace Sys2Proof.Machine

variable {s t : State} {p : Latch} {i : Instr} {rest : List HostOp} {turns : List Turn}

/-! ### The Engine's turn -/

theorem step_engine (h : s.sched = .engine :: turns) : step s = { s with sched := turns }.engineTurn := step_of_sched h

theorem step_pending_unscheduled (hl : s.block.latch = some p) (h : s.sched = []) : step s = s.engineTurn :=
  step_of_no_sched_busy h (Option.isSome_iff_exists.2 ⟨p, hl⟩)

/-- Settles O4: both steps are the Engine's turn, which runs the decoded command. -/
theorem stepRunsTheDecodedCommand : Obligations.StepRunsTheDecodedCommand := by
  refine fun s p i hl hd => ⟨fun turns hs => ?scheduled, fun hs => ?unscheduled⟩
  case scheduled => exact (step_engine hs).trans (engineTurn_legal (s := { s with sched := turns }) hl hd)
  case unscheduled => exact (step_pending_unscheduled hl hs).trans (engineTurn_legal hl hd)

theorem exists_decode_error {d : Word} (h1 : d ≠ 1#32) (h2 : d ≠ 2#32) (h3 : d ≠ 3#32) (h4 : d ≠ 4#32) :
    ∃ e, decode d = .error e := by
  cases hd : decode d with
  | error e => exact ⟨e, rfl⟩
  | ok i =>
    obtain h | h | h | h := exists_eq_encode.1 ⟨i, decode_eq_ok.1 hd⟩
    · exact absurd h h1
    · exact absurd h h2
    · exact absurd h h3
    · exact absurd h h4

/-- Settles O3: a word other than the four legal ones does not decode, and the Engine's turn only completes it. -/
theorem illegalWordOnlyReportsIllegalCmd : Obligations.IllegalWordOnlyReportsIllegalCmd := by
  refine ⟨rfl, fun s p hl h1 h2 h3 h4 => ?_⟩
  obtain ⟨e, hd⟩ := exists_decode_error h1 h2 h3 h4
  refine ⟨fun turns hs => ?scheduled, fun hs => ?unscheduled⟩
  case scheduled => exact (step_engine hs).trans (engineTurn_illegal (s := { s with sched := turns }) hl hd)
  case unscheduled => exact (step_pending_unscheduled hl hs).trans (engineTurn_illegal hl hd)

theorem ofNat_tableBits_toNat (d : Word) : BitVec.ofNat 32 (tableBits 32 d.toNat) = d := by
  rw [tableBits, Nat.mod_eq_of_lt d.isLt, BitVec.ofNat_toNat, BitVec.setWidth_eq]

/-- The placed command is pending with `rst` released, and the Engine has the next turn. -/
theorem step_withFetchWord (s : State) (i : Instr) :
    step (s.withFetchWord 32 (encode i).toNat) = exec i { s with block := s.block.accept (encode i), rst := false } := by
  rw [State.withFetchWord, ofNat_tableBits_toNat, step_engine (s.withCommand_sched (encode i))]
  exact engineTurn_legal (Block.accept_latch _ _) (decode_encode i)

/-- Settles O5: `step_withFetchWord`, with the acceptance written out. -/
theorem fetchWordRunsNext : Obligations.FetchWordRunsNext := step_withFetchWord

/-! ### Reset and `rst` -/

/-- Settles O40: the reset block is a literal, and its register words compute. -/
theorem resetValues : Obligations.ResetValues := fun _ =>
  ⟨fun _ => rfl, Block.ctrlWord_eq _, Block.statusWord_eq _, rfl, rfl, Block.hdrWord_eq _, rfl, rfl, fun _ => rfl, rfl, rfl⟩

/-- Settles O41: LEN.N is 0 at reset, so the placed command fails the second range check, whatever the capacity. -/
theorem commandAtOnceAfterResetIsTruncated : Obligations.CommandAtOnceAfterResetIsTruncated := by
  rintro i n _ rfl
  have hshort : (0#16).toNat < 24 := by decide
  exact (step_withFetchWord _ i).trans (exec_of_ends (b := (Block.reset n).accept (encode i)) rfl
    (ruleOf_truncated i (Nat.zero_le n) hshort))

theorem driveRst_eq_reset {level : Bool} (h : level = true ∨ s.rst = true) :
    s.driveRst level = { s with rst := level, block := Block.reset s.block.bufBytes } :=
  if_pos (Bool.or_eq_true_iff.2 h)

theorem driveRst_released (h : s.rst = false) : s.driveRst false = s := by
  rw [State.driveRst, h, if_neg (by decide), ← h]

/-- Settles O42: a level is `driveRst`; while `rst` is asserted a store writes nothing and a load reads the draw's lanes. -/
theorem rstResetsTheBlock : Obligations.RstResetsTheBlock := by
  refine fun s turns => ⟨fun level hs hlevel => ?level, fun hrst w off d rest hnext hlegal => ?store,
    fun hrst x w off rest hnext hlegal => ?load⟩
  case level =>
    rw [step_of_sched hs]
    exact congrArg Host.Outcome.next (driveRst_eq_reset (s := { s with sched := turns }) hlevel)
  case store => rw [step_store hnext hlegal, if_pos hrst]
  case load =>
    refine ⟨_, fun j hj => ?_, step_load hnext hlegal⟩
    rw [hostReadValue_rst w off hrst]
    exact lane_ofLanes_inside w _ hj

/-! ### Turns that change nothing -/

theorem hostTurn_no_program (h : s.host.program = []) : s.hostTurn = .next s := by
  rw [State.hostTurn, h]

/-- Settles O45: each turn of an agent that can do nothing answers the state it was given. -/
theorem idleBlockChangesNothing : Obligations.IdleBlockChangesNothing := by
  refine fun s hidle => ⟨fun turns hs => ?engine, fun turns hs hp => ?host, fun turns hs hrst => ?rst,
    fun rest turns hnext => ?waitIrq, fun hs hp => ?nothing⟩
  case engine =>
    exact (step_engine hs).trans (engineTurn_idle (s := { s with sched := turns }) (Block.latch_eq_none hidle))
  case host => exact (step_of_sched hs).trans (hostTurn_no_program (s := { s with sched := turns }) hp)
  case rst =>
    rw [step_of_sched hs]
    exact congrArg Host.Outcome.next (driveRst_released (s := { s with sched := turns }) hrst)
  case waitIrq => exact ⟨_, step_waitIrq hnext, rfl⟩
  case nothing => exact (step_of_no_sched_idle hs hidle).trans (hostTurn_no_program hp)

/-- Settles O49: with nothing scheduled an idle machine gives the Host the turn, as a scheduled Host turn does. -/
theorem hostMovesWhereNothingIsScheduled : Obligations.HostMovesWhereNothingIsScheduled := by
  refine fun s hs hidle => ⟨?_, fun op rest hp => ⟨hp, rfl⟩⟩
  rw [step_of_no_sched_idle hs hidle, step_of_sched (turns := []) rfl, State.takeTurn, ← hs]

/-! ### The wait for `irq` -/

theorem step_waitIrq_stays (h : s.HostNext .waitIrq rest turns) (hirq : s.block.irq = false) :
    step s = .next { s with sched := turns } := by
  rw [step_waitIrq h, hirq, if_neg Bool.false_ne_true, ← h.program]

theorem step_waitIrq_goes_on (h : s.HostNext .waitIrq rest turns) (hirq : s.block.irq = true) :
    step s = .next { s with host := { s.host with program := rest }, sched := turns } := by
  rw [step_waitIrq h, if_pos hirq]

/-- Settles O50: one turn is `step_waitIrq`; the level is 0 by the invariant, and CTRL.IE after a completion (O26). -/
theorem irqWaitHoldsUntilIrq : Obligations.IrqWaitHoldsUntilIrq := by
  refine fun s rest turns hnext => ⟨?turn, fun hi hwait => ?stays, fun i u hexec hie => ?goesOn⟩
  case turn => simp only [step_waitIrq hnext, Block.irq_eq_true]
  case stays => exact step_waitIrq_stays hnext (hi.irq_eq_false hwait)
  case goesOn =>
    obtain ⟨-, -, -, -, -, -, -, hirq, -⟩ := everyCompletionFrame i u s hexec
    exact step_waitIrq_goes_on hnext (hirq.trans hie)

/-! ### Several blocks -/

theorem System.stepAt_next {sys sys' : System} {j : Nat} (h : sys.stepAt j = .next sys') :
    (sys[j]? = none ∧ sys' = sys) ∨
    ∃ u t, sys[j]? = some u ∧ step u.machine = .next t ∧ sys' = sys.set j { u with machine := t } := by
  unfold System.stepAt at h
  cases hj : sys[j]? with
  | none =>
    rw [hj] at h
    cases h
    exact .inl ⟨rfl, rfl⟩
  | some u =>
    simp only [hj] at h
    cases hstep : step u.machine with
    | next t =>
      rw [hstep] at h
      cases h
      exact .inr ⟨u, t, rfl, hstep, rfl⟩
    | fault r => rw [hstep] at h; cases h
    | refused r => rw [hstep] at h; cases h

/-- Putting back an entry whose `f` is the same leaves the list of the `f`s. -/
theorem map_set_of_getElem?_eq {α β : Type} (f : α → β) {l : List α} {j : Nat} {u v : α} (hj : l[j]? = some u)
    (hf : f v = f u) : (l.set j v).map f = l.map f := by
  rw [List.map_set, hf]
  obtain ⟨hlt, rfl⟩ := List.getElem?_eq_some_iff.1 hj
  rw [← List.getElem_map f (h := by simpa using hlt), List.set_getElem_self]

/-- Settles O47: a step replaces the one entry of the list, by one with the same BASE and IRQ_LINE. -/
theorem blocksOfASystemShareNothing : Obligations.BlocksOfASystemShareNothing := by
  intro sys sys' j h
  obtain ⟨hj, rfl⟩ | ⟨u, t, hj, hstep, rfl⟩ := System.stepAt_next h
  · exact ⟨fun _ _ => rfl, rfl, rfl, rfl, fun u hu => nomatch hj.symm.trans hu⟩
  · refine ⟨fun k hk => List.getElem?_set_ne hk.symm, List.length_set, map_set_of_getElem?_eq _ hj rfl,
      map_set_of_getElem?_eq _ hj rfl, fun u' hu' => ?_⟩
    cases hj.symm.trans hu'
    obtain ⟨hlt, -⟩ := List.getElem?_eq_some_iff.1 hj
    exact ⟨t, hstep, List.getElem?_set_self hlt⟩

end Sys2Proof.Machine
end

section
/-!
PROOFS. The laws of the fold and of the checksum (spec/40_checksum.md R72 to R74): `Fold(S)` in closed form, the two passes it
takes on a packet's sum, the end-around-carry sum, and what the checksum does not depend on.
-/

namespace Sys2Proof.Machine

variable {m m' : Memory} {n : Nat}

/-! ### The fold in closed form -/

theorem fold_mod (s : Nat) : fold s % 0xFFFF = s % 0xFFFF := by
  induction s using Nat.strong_induction_on with
  | _ s ih =>
    by_cases hs : s ≤ 0xFFFF
    · rw [fold_of_le hs]
    · rw [fold_of_gt hs, ih _ (foldPass_lt (not_le.1 hs)), foldPass_mod]

theorem fold_pos {s : Nat} (h : 0 < s) : 0 < fold s := by
  induction s using Nat.strong_induction_on with
  | _ s ih =>
    by_cases hs : s ≤ 0xFFFF
    · rwa [fold_of_le hs]
    · rw [fold_of_gt hs]
      exact ih _ (foldPass_lt (not_le.1 hs)) (foldPass_pos h)

/-- `Fold(S)` is 0 for S = 0, else the number from 1 to 0xFFFF that is congruent to S modulo 0xFFFF. -/
theorem fold_eq (s : Nat) : fold s = if s = 0 then 0 else (s - 1) % 0xFFFF + 1 := by
  split
  case isTrue h => rw [h, fold_of_le (Nat.zero_le _)]
  case isFalse h =>
    have hpos := fold_pos (Nat.pos_of_ne_zero h)
    have hle := fold_le s
    have hmod := fold_mod s
    omega

theorem fold_eq_zero {s : Nat} : fold s = 0 ↔ s = 0 := by
  rw [fold_eq]
  split <;> omega

theorem fold_eq_max {s : Nat} : fold s = 0xFFFF ↔ ∃ c, 0 < c ∧ s = c * 0xFFFF := by
  have hdvd : (∃ c, 0 < c ∧ s = c * 0xFFFF) ↔ s ≠ 0 ∧ s % 0xFFFF = 0 :=
    ⟨fun ⟨c, hc, hs⟩ => by omega, fun ⟨h0, hmod⟩ => ⟨s / 0xFFFF, by omega, by omega⟩⟩
  rw [hdvd, fold_eq]
  split <;> omega

/-! ### Two passes -/

theorem packetSum_le (m : Memory) (h : n ≤ 65535) : packetSum m n ≤ 0x7FFF8000 := by
  have hsum := sumWords_le m n (wordCount n)
  have hcount : wordCount n ≤ 32768 := by unfold wordCount; omega
  unfold packetSum
  omega

theorem foldPass_le_of_packetSum {s : Nat} (h : s ≤ 0x7FFF8000) : foldPass s ≤ 0x17FFE := by
  unfold foldPass
  omega

theorem foldPass_le_of_foldPass {s : Nat} (hgt : 0xFFFF < s) (hle : s ≤ 0x17FFE) : foldPass s ≤ 0x7FFF := by
  unfold foldPass
  omega

theorem fold_eq_two_passes {s : Nat} (h : s ≤ 0x7FFF8000) : fold s =
    if s ≤ 0xFFFF then s else if foldPass s ≤ 0xFFFF then foldPass s else foldPass (foldPass s) := by
  split_ifs with hzero hone
  · exact fold_of_le hzero
  · rw [fold_of_gt hzero, fold_of_le hone]
  · have htwo := foldPass_le_of_foldPass (not_le.1 hone) (foldPass_le_of_packetSum h)
    rw [fold_of_gt hzero, fold_of_gt hone, fold_of_le (htwo.trans (by decide))]

/-- Settles O32: the bounds go from the sum through one pass to the next, and the fold stops by the second. -/
theorem sumFitsAndFoldsInTwoPasses : Obligations.SumFitsAndFoldsInTwoPasses := by
  intro m n hn
  have hsum := packetSum_le m hn
  have hpass := foldPass_le_of_packetSum hsum
  exact ⟨hsum, hpass, fun hgt => foldPass_le_of_foldPass hgt hpass, fold_eq_two_passes hsum⟩

/-! ### The end-around-carry sum -/

theorem endAroundAdd_fold (a : Nat) {w : Nat} (hw : w ≤ 0xFFFF) : endAroundAdd (fold a) w = fold (a + w) := by
  rw [endAroundAdd, fold_eq, fold_eq]
  split_ifs <;> omega

theorem endAroundSum_eq_fold (m : Memory) (n count : Nat) : endAroundSum m n count = fold (sumWords m n count) := by
  induction count with
  | zero => rfl
  | succ c ih =>
    have hword : (summedWord m n c).toNat ≤ 0xFFFF := Nat.le_of_lt_succ (summedWord m n c).isLt
    rw [endAroundSum, ih, endAroundAdd_fold _ hword, sumWords]

/-- Settles O33: adding a word to the folded sum so far, with its carry, folds the sum with that word (`endAroundAdd_fold`). -/
theorem endAroundCarrySumEqualsFoldedSum : Obligations.EndAroundCarrySumEqualsFoldedSum := fun m n =>
  endAroundSum_eq_fold m n (wordCount n)

/-! ### The extreme checksums -/

theorem checksum_eq_iff_fold {c : Half} : checksum m n = c ↔ fold (packetSum m n) = 0xFFFF - c.toNat := by
  have hfold := fold_le (packetSum m n)
  have hc := c.isLt
  rw [← BitVec.toNat_inj, checksum_toNat]
  omega

theorem weightedByte_eq_zero {k : Nat} (hk : k < n) :
    weightedByte m n k = 0 ↔ (excluded k = false → m.byte k = 0#8) := by
  have hweight : (if k % 2 = 0 then 256 else 1 : Nat) ≠ 0 := by split <;> decide
  rw [weightedByte, Nat.mul_eq_zero, or_iff_left hweight, summedByte_eq]
  cases excluded k <;> simp [hk, ← BitVec.toNat_inj]

theorem packetSum_eq_zero : packetSum m n = 0 ↔ ∀ k, k < n → excluded k = false → m.byte k = 0#8 := by
  rw [packetSum_eq_sum, Finset.sum_eq_zero_iff]
  exact forall_congr' fun k =>
    ⟨fun h hk => (weightedByte_eq_zero hk).1 (h (Finset.mem_range.2 hk)),
      fun h hk => (weightedByte_eq_zero (Finset.mem_range.1 hk)).2 (h (Finset.mem_range.1 hk))⟩

/-- Settles O34: the laws are read off the closed form `fold_eq`, and the checksum is the complement of the fold. -/
theorem foldLaws : Obligations.FoldLaws := by
  refine ⟨fun S => ⟨fold_eq_zero, fun hS => ⟨fold_pos (Nat.pos_of_ne_zero hS), fold_le S⟩, fold_mod S⟩,
    fun m n => ⟨?ones, ?zeros⟩⟩
  case ones => rw [checksum_eq_iff_fold, ← packetSum_eq_zero, ← fold_eq_zero]; rfl
  case zeros => rw [checksum_eq_iff_fold, ← fold_eq_max]; rfl

/-! ### Independence -/

/-- The checksum reads only the bytes of the packet that are summed. -/
theorem checksum_congr_summed (h : ∀ k, k < n → excluded k = false → m'.byte k = m.byte k) :
    checksum m' n = checksum m n := by
  refine checksum_congr fun k => ?_
  rw [summedByte_eq, summedByte_eq]
  split
  case isTrue hk =>
    obtain ⟨hin, hsummed⟩ := hk
    exact h k hin hsummed
  case isFalse => rfl

theorem checksum_congr_packetSum {n' : Nat} (h : packetSum m' n' = packetSum m n) : checksum m' n' = checksum m n := by
  rw [checksum, checksum, h]

theorem packetSum_append_zeros {extra : Nat} (h : ∀ k, n ≤ k → k < n + extra → m.read k = some 0#8) :
    packetSum m (n + extra) = packetSum m n := by
  have hinside : ∀ k ∈ Finset.range n, weightedByte m n k = weightedByte m (n + extra) k := fun k hk => by
    have hlt := Finset.mem_range.1 hk
    rw [weightedByte_inside m hlt, weightedByte_inside m (hlt.trans_le (Nat.le_add_right n extra))]
  have hzeros : ∀ k ∈ Finset.range (n + extra), k ∉ Finset.range n → weightedByte m (n + extra) k = 0 := fun k hk hout => by
    have hbyte := Memory.byte_of_read (h k (not_lt.1 (Finset.mem_range.not.1 hout)) (Finset.mem_range.1 hk))
    exact (weightedByte_eq_zero (Finset.mem_range.1 hk)).2 fun _ => hbyte
  rw [packetSum_eq_sum, packetSum_eq_sum, Finset.sum_congr rfl hinside]
  exact (Finset.sum_subset (Finset.range_subset_range.2 (Nat.le_add_right n extra)) hzeros).symm

theorem sumWords_eq_list_sum (m : Memory) (n count : Nat) :
    sumWords m n count = (((List.range count).map (summedWord m n)).map BitVec.toNat).sum := by
  induction count with
  | zero => rfl
  | succ c ih => simp [sumWords, ih, List.range_succ]

/-- Settles O35: by the bytes the sum reads, by the zero bytes it adds, and by the list of words it sums. -/
theorem checksumIndependence : Obligations.ChecksumIndependence := by
  refine ⟨fun m m' n hagree => ?excludedBytes, fun m n extra hzeros => ?appendedZeros, fun m m' n hperm => ?wordOrder⟩
  case excludedBytes =>
    refine checksum_congr_summed fun k _ hsummed => ?_
    obtain ⟨h12, h13, hauth⟩ := excluded_eq_false.1 hsummed
    exact Memory.byte_congr (hagree k h12 h13 hauth)
  case appendedZeros => exact checksum_congr_packetSum (packetSum_append_zeros hzeros)
  case wordOrder =>
    refine checksum_congr_packetSum ?_
    rw [packetSum, packetSum, sumWords_eq_list_sum, sumWords_eq_list_sum]
    exact (hperm.map BitVec.toNat).sum_eq

end Sys2Proof.Machine
end

section
/-!
PROOFS. Changed packets (spec/40_checksum.md R78, R79): VAL detects every change of one byte outside the authentication region,
and the authentication region changes nothing that a command reports.
-/

namespace Sys2Proof.Machine

variable {s t : State} {p : Latch} {b b' : Block} {m m' : Memory} {n : Nat} {i : Instr} {code : ErrCode}

/-! ### VAL on a ready packet -/

theorem exec_val_ready (hl : s.block.latch = some p) (h : s.block.PacketReady p.n.toNat) :
    ∃ t, exec .val s = .next t ∧
      t.block.status.errCode = valOutcome p s.block.captureHeader (checksum s.block.buf p.n.toNat) :=
  ⟨_, exec_of_ends hl (ruleOf_val_ready h), rfl⟩

theorem ruleOf_val_passes (h : ruleOf .val p b = .ends .none b') :
    b.PacketReady p.n.toNat ∧ checksum b.buf p.n.toNat = b.buf.byte 12 ++ b.buf.byte 13 := by
  obtain ⟨hcode, -⟩ | ⟨hcode, -⟩ | ⟨hready, hcommand⟩ := ruleOf_ends h
  · cases hcode
  · cases hcode
  obtain ⟨hi, -⟩ | ⟨-, hcode, -⟩ | ⟨hi, -⟩ | ⟨hi, -⟩ | ⟨hi, -⟩ := hcommand
  · cases hi
  · refine ⟨hready, by_contra fun hne => ?_⟩
    rw [valOutcome_captureHeader, if_pos hne] at hcode
    cases hcode
  · cases hi
  · cases hi
  · cases hi

theorem Block.PacketReady.transfer (h : b.PacketReady n) (hcap : b'.bufBytes = b.bufBytes)
    (hw : ∀ k, k < n → (b.buf.read k).isSome = true → (b'.buf.read k).isSome = true) : b'.PacketReady n :=
  ⟨h.atLeast, hcap ▸ h.fits, fun k hk => hw k hk (h.written k hk)⟩

/-! ### One changed byte -/

/-- The buffer `m'` is `m` with another byte at `k`. -/
structure Memory.DiffersAt (k : Nat) (m m' : Memory) : Prop where
  changed : m'.byte k ≠ m.byte k
  others : ∀ l, l ≠ k → m'.byte l = m.byte l

theorem packetSum_mod_of_checksum_eq (h : checksum m' n = checksum m n) :
    packetSum m' n % 0xFFFF = packetSum m n % 0xFFFF := by
  have hfold := checksum_eq_iff_fold.1 h
  rw [checksum_toNat, Nat.sub_sub_self (fold_le _)] at hfold
  rw [← fold_mod, hfold, fold_mod]

/-- The two sums differ in the changed byte's term alone. -/
theorem packetSum_of_differsAt {k : Nat} (h : m.DiffersAt k m') (hk : k < n) :
    packetSum m' n + weightedByte m n k = packetSum m n + weightedByte m' n k := by
  have hrest : ∑ l ∈ (Finset.range n).erase k, weightedByte m' n l =
      ∑ l ∈ (Finset.range n).erase k, weightedByte m n l := by
    refine Finset.sum_congr rfl fun l hl => ?_
    obtain ⟨hne, hin⟩ := Finset.mem_erase.1 hl
    rw [weightedByte_inside _ (Finset.mem_range.1 hin), weightedByte_inside _ (Finset.mem_range.1 hin), h.others l hne]
  have hnew := Finset.add_sum_erase _ (weightedByte m' n) (Finset.mem_range.2 hk)
  have hold := Finset.add_sum_erase _ (weightedByte m n) (Finset.mem_range.2 hk)
  rw [packetSum_eq_sum, packetSum_eq_sum, ← hnew, ← hold, hrest]
  omega

theorem weightedByte_summed (m : Memory) {k : Nat} (hk : k < n) (hsummed : excluded k = false) :
    weightedByte m n k = (m.byte k).toNat * if k % 2 = 0 then 256 else 1 := by
  rw [weightedByte, summedByte_eq, if_pos ⟨hk, hsummed⟩]

/-- A byte weighs at most 256, so changing one moves the sum by less than 0xFFFF, which the fold keeps apart. -/
theorem checksum_ne_of_summed_byte {k : Nat} (h : m.DiffersAt k m') (hk : k < n) (hsummed : excluded k = false) :
    checksum m' n ≠ checksum m n := by
  intro heq
  have hmod := packetSum_mod_of_checksum_eq heq
  have hsum := packetSum_of_differsAt h hk
  have hchanged : (m'.byte k).toNat ≠ (m.byte k).toNat := fun he => h.changed (BitVec.eq_of_toNat_eq he)
  have hnew := (m'.byte k).isLt
  have hold := (m.byte k).isLt
  rw [weightedByte_summed m hk hsummed, weightedByte_summed m' hk hsummed] at hsum
  split at hsum <;> omega

/-- A changed byte of the checksum field changes the field and not the checksum; any other changes the checksum alone. -/
theorem checksum_ne_field_of_differsAt {k : Nat} (h : m.DiffersAt k m') (hk : k < n) (hauth : ¬(16 ≤ k ∧ k ≤ 23))
    (hpass : checksum m n = m.byte 12 ++ m.byte 13) : checksum m' n ≠ m'.byte 12 ++ m'.byte 13 := by
  by_cases hfield : k = 12 ∨ k = 13
  · have hsame : checksum m' n = checksum m n := checksum_congr_summed fun l _ hl => by
      obtain ⟨h12, h13, -⟩ := excluded_eq_false.1 hl
      exact h.others l (by rintro rfl; exact hfield.elim h12 h13)
    rw [hsame, hpass]
    obtain rfl | rfl := hfield
    · rw [h.others 13 (by decide), ne_eq, BitVec.append_left_inj]
      exact Ne.symm h.changed
    · rw [h.others 12 (by decide), ne_eq, BitVec.append_right_inj]
      exact Ne.symm h.changed
  · obtain ⟨h12, h13⟩ := not_or.1 hfield
    rw [h.others 12 (Ne.symm h12), h.others 13 (Ne.symm h13), ← hpass]
    exact checksum_ne_of_summed_byte h hk (excluded_eq_false.2 ⟨h12, h13, hauth⟩)

theorem xor_twoPow_ne {w j : Nat} (x : BitVec w) (hj : j < w) : x ^^^ BitVec.twoPow w j ≠ x := by
  intro h
  have hzero : BitVec.twoPow w j = 0#w := (BitVec.xor_right_inj x).1 (h.trans BitVec.xor_zero.symm)
  have hbit := congrArg (BitVec.getLsbD · j) hzero
  simp [hj] at hbit

/-- Settles O36: a flipped bit changes its byte, and VAL finds the checksum of the changed packet off its checksum field. -/
theorem singleBitFlipFailsOnChecksum : Obligations.SingleBitFlipFailsOnChecksum := by
  intro s s' t p p' k j byte hl hexec hnone hl' hn hcap hk hauth hj hbyte hflip hothers
  obtain ⟨q, code, b, hq, hends, rfl⟩ := exec_next hexec
  cases hl.symm.trans hq
  obtain rfl : code = .none := hnone
  obtain ⟨hready, hpass⟩ := ruleOf_val_passes hends
  have hdiffers : s.block.buf.DiffersAt k s'.block.buf := by
    refine ⟨?_, fun l hne => Memory.byte_congr (hothers l hne)⟩
    rw [Memory.byte_of_read hbyte, Memory.byte_of_read hflip]
    exact xor_twoPow_ne byte hj
  have hready' : s'.block.PacketReady p'.n.toNat := by
    rw [hn]
    refine hready.transfer hcap fun l _ hw => ?_
    by_cases hlk : l = k
    · rw [hlk, hflip]; rfl
    · rwa [hothers l hlk]
  obtain ⟨t', hexec', hcode⟩ := exec_val_ready hl' hready'
  refine ⟨t', hexec', ?_⟩
  rw [hcode, valOutcome_captureHeader, if_pos]
  rw [hn]
  exact checksum_ne_field_of_differsAt hdiffers hk hauth hpass

/-! ### The authentication region -/

/-- The two buffers hold the same packet of `n` bytes but for what stands in the authentication region, bytes 16 to 23. -/
def Memory.AgreeOutsideAuth (n : Nat) (m m' : Memory) : Prop :=
  ∀ k, k < n → ¬(16 ≤ k ∧ k ≤ 23) → m'.read k = m.read k

theorem Memory.AgreeOutsideAuth.byte_eq (h : m.AgreeOutsideAuth n m') {k : Nat} (hk : k < n)
    (hauth : ¬(16 ≤ k ∧ k ≤ 23)) : m'.byte k = m.byte k :=
  Memory.byte_congr (h k hk hauth)

theorem Memory.AgreeOutsideAuth.checksum_eq (h : m.AgreeOutsideAuth n m') : checksum m' n = checksum m n := by
  refine checksum_congr_summed fun k hk hsummed => ?_
  obtain ⟨-, -, hauth⟩ := excluded_eq_false.1 hsummed
  exact h.byte_eq hk hauth

theorem Memory.AgreeOutsideAuth.capturedHdr_eq (h : m.AgreeOutsideAuth n m') (hn : 24 ≤ n) :
    m'.capturedHdr = m.capturedHdr := by
  rw [Memory.capturedHdr, Memory.capturedHdr, h.byte_eq (k := 2) (by omega) (by decide),
    h.byte_eq (k := 3) (by omega) (by decide), h.byte_eq (k := 12) (by omega) (by decide),
    h.byte_eq (k := 13) (by omega) (by decide)]

theorem Memory.AgreeOutsideAuth.authType_eq (h : m.AgreeOutsideAuth n m') (hn : 24 ≤ n) : m'.authType = m.authType := by
  rw [Memory.authType_eq, Memory.authType_eq, h.byte_eq (k := 14) (by omega) (by decide),
    h.byte_eq (k := 15) (by omega) (by decide)]

theorem Memory.AgreeOutsideAuth.patchLength (h : m.AgreeOutsideAuth n m') (v : Half) :
    (m.patchLength v).AgreeOutsideAuth n (m'.patchLength v) := by
  intro k hk hauth
  rw [Memory.read_patchLength, Memory.read_patchLength, h k hk hauth]

theorem Block.PacketReady.of_agree (hready : b.PacketReady n) (h : b.buf.AgreeOutsideAuth n b'.buf)
    (hcap : b'.bufBytes = b.bufBytes) (hauth : ∀ k, 16 ≤ k → k ≤ 23 → (b'.buf.read k).isSome = true) :
    b'.PacketReady n := by
  refine hready.transfer hcap fun k hk hw => ?_
  by_cases hin : 16 ≤ k ∧ k ≤ 23
  · obtain ⟨hlow, hhigh⟩ := hin
    exact hauth k hlow hhigh
  · rwa [h k hk hin]

theorem valOutcome_of_agree (h : b.buf.AgreeOutsideAuth n b'.buf) (hn : 24 ≤ n) (c : Half) :
    valOutcome p b'.captureHeader c = valOutcome p b.captureHeader c := by
  rw [valOutcome, valOutcome, Block.captureHeader_hdr, Block.captureHeader_hdr, Block.captureHeader_buf,
    Block.captureHeader_buf, h.capturedHdr_eq hn, h.authType_eq hn]

/-- What stands in the authentication region changes neither how a command's rule ends nor what it reports. -/
theorem ruleOf_ends_of_agree {c : Block} (hends : ruleOf i p b = .ends code b')
    (h : b.buf.AgreeOutsideAuth p.n.toNat c.buf) (hauth : ∀ k, 16 ≤ k → k ≤ 23 → (c.buf.read k).isSome = true)
    (hc : c = { b with buf := c.buf }) :
    ∃ c', ruleOf i p c = .ends code c' ∧ c'.result = b'.result ∧ c'.hdr = b'.hdr := by
  have hcap : c.bufBytes = b.bufBytes := by rw [hc]
  have hresult : c.result = b.result := by rw [hc]
  obtain ⟨rfl, rfl, hg⟩ | ⟨rfl, rfl, hg, hg'⟩ | ⟨hready, hcommand⟩ := ruleOf_ends hends
  · exact ⟨c, ruleOf_lenRange i (hcap ▸ hg), hresult, by rw [hc]⟩
  · exact ⟨c, ruleOf_truncated i (hcap ▸ hg) hg', hresult, by rw [hc]⟩
  have h24 := hready.atLeast
  have hready' : c.PacketReady p.n.toNat := hready.of_agree h hcap hauth
  have hhdr : c.captureHeader.hdr = b.captureHeader.hdr := by
    rw [Block.captureHeader_hdr, Block.captureHeader_hdr, h.capturedHdr_eq h24]
  obtain ⟨rfl, rfl, rfl⟩ | ⟨rfl, rfl, rfl⟩ | ⟨rfl, rfl, rfl⟩ | ⟨rfl, rfl, htype, rfl⟩ | ⟨rfl, rfl, htype, rfl⟩ := hcommand
  · exact ⟨_, ruleOf_csum_ready hready', h.checksum_eq, hhdr⟩
  · have hcode : valOutcome p c.captureHeader (checksum c.buf p.n.toNat) =
        valOutcome p b.captureHeader (checksum b.buf p.n.toNat) := by
      rw [h.checksum_eq, valOutcome_of_agree h h24]
    exact ⟨_, (ruleOf_val_ready hready').trans (congrArg (CmdResult.ends · _) hcode), h.checksum_eq, hhdr⟩
  · exact ⟨_, ruleOf_plen_ready hready', hresult, hhdr⟩
  · rw [← h.authType_eq h24] at htype
    exact ⟨_, (ruleOf_gen_ready hready').trans (if_pos htype), hresult, hhdr⟩
  · rw [← h.authType_eq h24] at htype
    exact ⟨_, (ruleOf_gen_ready hready').trans (if_neg (not_not.2 htype)), (h.patchLength p.n).checksum_eq, hhdr⟩

/-- Settles O37: the rule ends alike on both buffers (`ruleOf_ends_of_agree`), and its frame keeps STATUS until the completion. -/
theorem authRegionDoesNotMatter : Obligations.AuthRegionDoesNotMatter := by
  intro i s s' t m hexec hs' hagree hauth
  obtain ⟨p, code, b, hl, hends, rfl⟩ := exec_next hexec
  subst hs'
  obtain ⟨c, hends', hresult, hhdr⟩ := ruleOf_ends_of_agree (c := { s.block with buf := m }) hends
    (fun k _ hk => hagree k hk) hauth rfl
  have hstatus : c.status = b.status := (ruleOf_frame hends').status.trans (ruleOf_frame hends).status.symm
  refine ⟨_, exec_of_ends (s := { s with block := { s.block with buf := m } }) hl hends', hresult, ?_, hhdr⟩
  simp only [Block.complete, hstatus]

end Sys2Proof.Machine
end

section
/-!
PROOFS. After a GEN (spec/41_length_generate.md R92, R93): what the packet it leaves has, why VAL passes on it, why a second GEN
changes nothing, and what PLEN followed by CSUM gives instead.
-/

namespace Sys2Proof.Machine

variable {s t : State} {p : Latch} {b b' : Block} {m m' : Memory} {n c : Half}

/-! ### The packet a GEN leaves -/

/-- The packet of `n` bytes carries its own length, its own checksum `c` and authentication type 0. -/
structure Memory.Generated (m : Memory) (n c : Half) : Prop where
  lengthHigh : m.read 2 = some (n.extractLsb' 8 8)
  lengthLow : m.read 3 = some (n.extractLsb' 0 8)
  checksumHigh : m.read 12 = some (c.extractLsb' 8 8)
  checksumLow : m.read 13 = some (c.extractLsb' 0 8)
  authType : m.authType = 0#16
  sum : checksum m n.toNat = c

theorem Memory.Generated.capturedHdr (h : m.Generated n c) : m.capturedHdr = { lenf := n, ckf := c } := by
  rw [Memory.capturedHdr, Memory.byte_of_read h.lengthHigh, Memory.byte_of_read h.lengthLow,
    Memory.byte_of_read h.checksumHigh, Memory.byte_of_read h.checksumLow, halves_append, halves_append]

theorem Memory.byte_patchLength_of_ne {k : Nat} (h2 : k ≠ 2) (h3 : k ≠ 3) : (m.patchLength n).byte k = m.byte k := by
  obtain ⟨-, -, hrest⟩ := m.patchLength_bytes n
  exact Memory.byte_congr (hrest k h2 h3)

theorem Memory.byte_patchChecksum_of_ne {k : Nat} (h12 : k ≠ 12) (h13 : k ≠ 13) :
    (m.patchChecksum c).byte k = m.byte k := by
  obtain ⟨-, -, hrest⟩ := m.patchChecksum_bytes c
  exact Memory.byte_congr (hrest k h12 h13)

theorem checksum_patchChecksum (m : Memory) (c : Half) (l : Nat) : checksum (m.patchChecksum c) l = checksum m l := by
  refine checksum_congr_summed fun k _ hsummed => ?_
  obtain ⟨h12, h13, -⟩ := excluded_eq_false.1 hsummed
  exact Memory.byte_patchChecksum_of_ne h12 h13

theorem Block.generate_generated (b : Block) (n : Half) (hauth : b.buf.authType = 0#16) :
    (b.generate n).buf.Generated n (b.generate n).result := by
  obtain ⟨hlenHigh, hlenLow, -⟩ := b.buf.patchLength_bytes n
  obtain ⟨hckHigh, hckLow, hrest⟩ := (b.buf.patchLength n).patchChecksum_bytes (b.generate n).result
  refine ⟨(hrest 2 (by decide) (by decide)).trans hlenHigh, (hrest 3 (by decide) (by decide)).trans hlenLow, hckHigh, hckLow,
    ?_, checksum_patchChecksum _ _ _⟩
  rw [← hauth, Memory.authType_eq, Memory.authType_eq, Block.generate]
  simp [Memory.byte_patchChecksum_of_ne, Memory.byte_patchLength_of_ne]

theorem Memory.Generated.of_agree (h : m.Generated n c) (h24 : 24 ≤ n.toNat) (hagree : m.AgreeOutsideAuth n.toNat m') :
    m'.Generated n c where
  lengthHigh := (hagree 2 (by omega) (by decide)).trans h.lengthHigh
  lengthLow := (hagree 3 (by omega) (by decide)).trans h.lengthLow
  checksumHigh := (hagree 12 (by omega) (by decide)).trans h.checksumHigh
  checksumLow := (hagree 13 (by omega) (by decide)).trans h.checksumLow
  authType := (hagree.authType_eq h24).trans h.authType
  sum := hagree.checksum_eq.trans h.sum

theorem Memory.isSome_read_memWrite {j k w : Nat} {v : BitVec (8 * w)} (h : (m.read j).isSome = true) :
    ((m.memWrite k w v).read j).isSome = true := by
  rw [Memory.read_memWrite]
  split
  · rfl
  · exact h

/-- A GEN without error found a ready packet of authentication type 0 and patched it. -/
theorem exec_gen_ok (hl : s.block.latch = some p) (h : exec .gen s = .next t) (hcode : t.block.status.errCode = .none) :
    s.block.PacketReady p.n.toNat ∧ s.block.buf.authType = 0#16 ∧
      t.block = (s.block.captureHeader.generate p.n).complete .none := by
  obtain ⟨q, code, b, hq, hends, rfl⟩ := exec_next h
  cases hl.symm.trans hq
  obtain rfl : code = .none := hcode
  obtain ⟨hc, -⟩ | ⟨hc, -⟩ | ⟨hready, hcommand⟩ := ruleOf_ends hends
  · cases hc
  · cases hc
  obtain ⟨hi, -⟩ | ⟨hi, -⟩ | ⟨hi, -⟩ | ⟨-, hc, -⟩ | ⟨-, -, hauth, rfl⟩ := hcommand
  · cases hi
  · cases hi
  · cases hi
  · cases hc
  · exact ⟨hready, hauth, rfl⟩

/-- What a GEN without error leaves: a ready packet that carries its length and the checksum in RESULT. -/
theorem exec_gen_generated (hl : s.block.latch = some p) (h : exec .gen s = .next t)
    (hcode : t.block.status.errCode = .none) :
    t.block.PacketReady p.n.toNat ∧ t.block.buf.Generated p.n t.block.result := by
  obtain ⟨hready, hauth, hblock⟩ := exec_gen_ok hl h hcode
  rw [hblock]
  exact ⟨hready.transfer rfl fun _ _ hw => Memory.isSome_read_memWrite (Memory.isSome_read_memWrite hw),
    s.block.captureHeader.generate_generated p.n hauth⟩

/-! ### VAL after GEN -/

theorem Memory.Generated.valOutcome_eq_none (h : b.buf.Generated p.n c) :
    valOutcome p b.captureHeader (checksum b.buf p.n.toNat) = .none := by
  rw [valOutcome, h.sum, Block.captureHeader_hdr, h.capturedHdr, Block.captureHeader_buf, h.authType]
  simp

/-- Settles O38: the packet VAL meets is still a generated one (`Memory.Generated.of_agree`), so its three checks hold. -/
theorem genThenValPasses : Obligations.GenThenValPasses := by
  intro s t s' p p' hl hexec hcode hl' hn hcap hagree hauth
  obtain ⟨hready, hgenerated⟩ := exec_gen_generated hl hexec hcode
  have hready' : s'.block.PacketReady p.n.toNat := hready.of_agree hagree hcap hauth
  have hgenerated' := hgenerated.of_agree hready.atLeast hagree
  rw [← hn] at hready' hgenerated'
  obtain ⟨t', hexec', hcode'⟩ := exec_val_ready hl' hready'
  exact ⟨t', hexec', hcode'.trans hgenerated'.valOutcome_eq_none⟩

/-! ### GEN after GEN, and PLEN and CSUM instead -/

/-- A buffer that reads the same at every offset serves a later command as well. -/
theorem Memory.AgreeOutsideAuth.of_reads (h : ∀ k, m'.read k = m.read k) (l : Nat) : m.AgreeOutsideAuth l m' :=
  fun k _ _ => h k

theorem Block.PacketReady.of_reads {l : Nat} (hready : b.PacketReady l) (hcap : b'.bufBytes = b.bufBytes)
    (h : ∀ k, b'.buf.read k = b.buf.read k) : b'.PacketReady l :=
  hready.transfer hcap fun k _ hw => (congrArg Option.isSome (h k)).trans hw

theorem Memory.Generated.read_patchLength (h : m.Generated n c) (k : Nat) : (m.patchLength n).read k = m.read k := by
  rw [Memory.read_patchLength]
  split_ifs with h2 h3
  · rw [h2, h.lengthHigh]
  · rw [h3, h.lengthLow]
  · rfl

theorem Memory.Generated.read_patchChecksum (h : m.Generated n c) (k : Nat) : (m.patchChecksum c).read k = m.read k := by
  rw [Memory.read_patchChecksum]
  split_ifs with h12 h13
  · rw [h12, h.checksumHigh]
  · rw [h13, h.checksumLow]
  · rfl

/-- On a generated packet both of GEN's patches write what stands there already. -/
theorem Memory.Generated.generate_fixed (h : b.buf.Generated n c) (h24 : 24 ≤ n.toNat) :
    (b.generate n).result = c ∧ ∀ k, (b.generate n).buf.read k = b.buf.read k := by
  have hagree := Memory.AgreeOutsideAuth.of_reads h.read_patchLength n.toNat
  have hresult : (b.generate n).result = c := hagree.checksum_eq.trans h.sum
  refine ⟨hresult, fun k => ?_⟩
  have hpatched := (h.of_agree h24 hagree).read_patchChecksum k
  rw [← hresult] at hpatched
  exact hpatched.trans (h.read_patchLength k)

/-- A GEN of a generated packet ends without error, in a packet that reads the same, with N and c in HDR. -/
theorem ruleOf_gen_generated (hready : b.PacketReady p.n.toNat) (h : b.buf.Generated p.n c) :
    ∃ b', ruleOf .gen p b = .ends .none b' ∧ (∀ k, b'.buf.read k = b.buf.read k) ∧ b'.result = c ∧
      b'.hdr = { lenf := p.n, ckf := c } := by
  have hcaptured : b.captureHeader.buf.Generated p.n c := h
  obtain ⟨hresult, hreads⟩ := hcaptured.generate_fixed hready.atLeast
  exact ⟨_, (ruleOf_gen_ready hready).trans (if_neg (not_not.2 h.authType)), hreads, hresult,
    b.captureHeader_hdr.trans h.capturedHdr⟩

theorem exec_plen_ready (hl : s.block.latch = some p) (h : s.block.PacketReady p.n.toNat) :
    ∃ u, exec .plen s = .next u ∧ u.block.buf = s.block.buf.patchLength p.n ∧ u.block.PacketReady p.n.toNat :=
  ⟨_, exec_of_ends hl (ruleOf_plen_ready h), rfl, h.transfer rfl fun _ _ hw => Memory.isSome_read_memWrite hw⟩

theorem exec_csum_ready (hl : s.block.latch = some p) (h : s.block.PacketReady p.n.toNat) :
    ∃ v, exec .csum s = .next v ∧ v.block.result = checksum s.block.buf p.n.toNat ∧ v.block.buf = s.block.buf :=
  ⟨_, exec_of_ends hl (ruleOf_csum_ready h), rfl, rfl⟩

/-- Settles O39: the second GEN meets a generated packet (`ruleOf_gen_generated`), and PLEN leaves CSUM the packet whose checksum
GEN computed. -/
theorem genIsIdempotent : Obligations.GenIsIdempotent := by
  intro s t p hl hexec hcode
  refine ⟨fun s' p' hl' hn hcap hreads => ?genAgain, ?plenThenCsum⟩
  case genAgain =>
    obtain ⟨hready, hgenerated⟩ := exec_gen_generated hl hexec hcode
    have hready' : s'.block.PacketReady p.n.toNat := hready.of_reads hcap hreads
    have hgenerated' := hgenerated.of_agree hready.atLeast (.of_reads hreads _)
    rw [← hn] at hready' hgenerated' ⊢
    obtain ⟨b, hends, hsame, hresult, hhdr⟩ := ruleOf_gen_generated hready' hgenerated'
    exact ⟨_, exec_of_ends hl' hends, rfl, fun k => (hsame k).trans (hreads k), hresult, congrArg Hdr.lenf hhdr,
      congrArg Hdr.ckf hhdr⟩
  case plenThenCsum =>
    obtain ⟨hready, -, hblock⟩ := exec_gen_ok hl hexec hcode
    obtain ⟨u, hplen, hbuf, hready'⟩ := exec_plen_ready hl hready
    refine ⟨u, hplen, fun u' p' hl' hn hcap hreads => ?_⟩
    have hready'' : u'.block.PacketReady p'.n.toNat := hn ▸ hready'.of_reads hcap hreads
    obtain ⟨v, hcsum, hresult, hbuf'⟩ := exec_csum_ready hl' hready''
    rw [hbuf] at hreads
    refine ⟨v, hcsum, ?result, fun k h12 h13 => ?bytes⟩
    case result =>
      rw [hresult, hn, (Memory.AgreeOutsideAuth.of_reads hreads _).checksum_eq, hblock]
      rfl
    case bytes =>
      obtain ⟨-, -, hrest⟩ := (s.block.buf.patchLength p.n).patchChecksum_bytes t.block.result
      rw [hbuf', hreads, ← hrest k h12 h13, hblock]
      rfl

end Sys2Proof.Machine
end

section
/-!
PROOFS. Liveness (spec/70_reset_and_hazards.md R131): every turn but `rst`'s either completes the pending command or leaves it
pending with its packet, so the command completes by the end of the schedule.
-/

namespace Sys2Proof.Machine

variable {s t : State} {p : Latch} {b : Block} {turns : List Turn}

/-- A command is pending that nothing stops: `rst` is released, the Host's operations meet no HostFault, and the packet is written
where the range checks let it be read. -/
structure State.WillComplete (s : State) (p : Latch) : Prop where
  pending : s.block.latch = some p
  released : s.rst = false
  legal : ∀ op ∈ s.host.program, op.legal s.block.bufBytes = true
  packet : 24 ≤ p.n.toNat → p.n.toNat ≤ s.block.bufBytes → s.block.PacketReady p.n.toNat

theorem State.WillComplete.busy (h : s.WillComplete p) : s.block.busy = true :=
  Option.isSome_iff_exists.2 ⟨p, h.pending⟩

/-- `s` has no command pending and reports a completion. -/
def State.Completed (s : State) : Prop := s.block.busy = false ∧ s.block.status.done = true

/-! ### The Engine's turn completes -/

theorem ruleOf_ends_of_packet (i : Instr) (h : 24 ≤ p.n.toNat → p.n.toNat ≤ b.bufBytes → b.PacketReady p.n.toNat) :
    ∃ code b', ruleOf i p b = .ends code b' := by
  by_cases hlong : b.bufBytes < p.n.toNat
  · exact ⟨_, _, ruleOf_lenRange i hlong⟩
  by_cases hshort : p.n.toNat < 24
  · exact ⟨_, _, ruleOf_truncated i (not_lt.1 hlong) hshort⟩
  · obtain ⟨code, b', hends, -⟩ := ruleOf_ends_of_ready i (h (not_lt.1 hshort) (not_lt.1 hlong))
    exact ⟨code, b', hends⟩

theorem State.WillComplete.engineTurn_completes (h : s.WillComplete p) : ∃ t, s.engineTurn = .next t ∧ t.Completed := by
  cases hd : decode p.word with
  | error e => exact ⟨_, engineTurn_illegal h.pending hd, rfl, rfl⟩
  | ok i =>
    obtain ⟨code, b, hends⟩ := ruleOf_ends_of_packet i h.packet
    exact ⟨_, (engineTurn_legal h.pending hd).trans (exec_of_ends h.pending hends), rfl, rfl⟩

/-! ### The other turns keep the command pending -/

/-- A Host whose operations are legal never faults, and its program only gets shorter. -/
theorem hostTurn_of_legal (h : ∀ op ∈ s.host.program, op.legal s.block.bufBytes = true) :
    ∃ t, s.hostTurn = .next t ∧ t.host.program ⊆ s.host.program ∧ t.rst = s.rst ∧ t.sched = s.sched := by
  unfold State.hostTurn
  cases hp : s.host.program with
  | nil => exact ⟨s, rfl, hp ▸ List.Subset.refl _, rfl, rfl⟩
  | cons op rest =>
    have hop : op.legal s.block.bufBytes = true := h op (hp ▸ List.mem_cons_self)
    have htail : rest ⊆ op :: rest := List.subset_cons_self op rest
    have hloop (q : Bool) : (if q then op :: rest else rest) ⊆ op :: rest := by
      cases q
      · exact htail
      · exact List.Subset.refl _
    cases op with
    | store w off d => exact ⟨_, hostStore_of_legal (Option.isNone_iff_eq_none.1 hop), htail, rfl, rfl⟩
    | load r w off => exact ⟨_, hostLoad_of_legal (Option.isNone_iff_eq_none.1 hop), htail, rfl, rfl⟩
    | wait r => exact ⟨_, hostLoad_of_legal (hostFaultOf_reg _ .status), by rw [hp]; exact hloop _, rfl, rfl⟩
    | waitIrq =>
      refine ⟨_, rfl, ?_, rfl, rfl⟩
      dsimp only
      split
      · exact htail
      · exact hp ▸ List.Subset.refl _

theorem State.WillComplete.hostTurn_keeps (h : s.WillComplete p) :
    ∃ t, s.hostTurn = .next t ∧ t.WillComplete p ∧ t.sched = s.sched := by
  obtain ⟨t, hturn, hprogram, hrst, hsched⟩ := hostTurn_of_legal h.legal
  obtain ⟨hblock, -⟩ := hostTurn_while_busy hturn h.busy
  have hcap : t.block.bufBytes = s.block.bufBytes := by rw [hblock]
  have hbuf : t.block.buf = s.block.buf := by rw [hblock]
  refine ⟨t, hturn, ⟨?pending, hrst.trans h.released, fun op hop => ?legal, fun h24 hfits => ?packet⟩, hsched⟩
  case pending => rw [hblock]; exact h.pending
  case legal => rw [hcap]; exact h.legal op (hprogram hop)
  case packet => exact (h.packet h24 (hcap ▸ hfits)).of_reads hcap fun k => by rw [hbuf]

theorem State.WillComplete.setSched (h : s.WillComplete p) (turns : List Turn) : { s with sched := turns }.WillComplete p :=
  ⟨h.pending, h.released, h.legal, h.packet⟩

/-- One step completes the command, or uses up one turn and leaves it pending. -/
theorem State.WillComplete.step_progress (h : s.WillComplete p) (hrst : ∀ turn ∈ s.sched, turn ≠ .rst true) :
    ∃ t, step s = .next t ∧ (t.Completed ∨ t.WillComplete p ∧ ∃ turn, s.sched = turn :: t.sched) := by
  cases hs : s.sched with
  | nil =>
    obtain ⟨t, hturn, hdone⟩ := h.engineTurn_completes
    exact ⟨t, (step_of_no_sched_busy hs h.busy).trans hturn, .inl hdone⟩
  | cons turn turns =>
    have hrest := h.setSched turns
    cases turn with
    | engine =>
      obtain ⟨t, hturn, hdone⟩ := hrest.engineTurn_completes
      exact ⟨t, (step_engine hs).trans hturn, .inl hdone⟩
    | host =>
      obtain ⟨t, hturn, hpending, hsched⟩ := hrest.hostTurn_keeps
      exact ⟨t, (step_of_sched hs).trans hturn, .inr ⟨hpending, .host, by rw [hsched]⟩⟩
    | rst level =>
      cases level with
      | true => exact absurd rfl (hrst (.rst true) (hs ▸ List.mem_cons_self))
      | false =>
        have hsame := driveRst_released hrest.released
        exact ⟨_, (step_of_sched hs).trans (congrArg Host.Outcome.next hsame), .inr ⟨hrest, .rst false, rfl⟩⟩

/-- By induction on the schedule: at its end the pending command moves first. -/
theorem State.WillComplete.run_completes (h : s.WillComplete p) (hrst : ∀ turn ∈ s.sched, turn ≠ .rst true) :
    ∃ k t, k ≤ s.sched.length + 1 ∧ Host.Core.run core k s = .next t ∧ State.Completed t := by
  induction hturns : s.sched generalizing s with
  | nil =>
    obtain ⟨t, hstep, hdone | ⟨-, turn, hs⟩⟩ := h.step_progress hrst
    · exact ⟨1, t, Nat.le_refl 1, run_succ_of_next core 0 s t hstep, hdone⟩
    · cases hturns.symm.trans hs
  | cons turn turns ih =>
    obtain ⟨t, hstep, hdone | ⟨hpending, turn', hs⟩⟩ := h.step_progress hrst
    · exact ⟨1, t, Nat.le_add_left 1 _, run_succ_of_next core 0 s t hstep, hdone⟩
    · cases hturns.symm.trans hs
      have hrst' : ∀ turn ∈ t.sched, turn ≠ .rst true := fun turn hturn => hrst turn (hs ▸ List.mem_cons_of_mem _ hturn)
      obtain ⟨k, u, hk, hrun, hdone⟩ := ih hpending hrst' rfl
      exact ⟨k + 1, u, Nat.succ_le_succ hk, (run_succ_of_next core k s t hstep).trans hrun, hdone⟩

/-- Settles O46: the hypotheses make up `State.WillComplete`, which runs to a completion. -/
theorem acceptedCommandCompletes : Obligations.AcceptedCommandCompletes := fun _ _ hl hreleased hrst hlegal hpacket =>
  State.WillComplete.run_completes ⟨hl, hreleased, hlegal, hpacket⟩ hrst

end Sys2Proof.Machine
end
